-- ==== Sys2Proof/Word.lean ====
section
/-! DEFINITION. The machine word and the register index (00_scope.md R1, 10_state.md R10). -/

namespace Sys2Proof

/-- The machine word: 16 bits. Every general register, every memory location and every instruction is
one word (00_scope.md R1); addresses and the program counter have the same width (R16, R30). -/
abbrev Word := BitVec 16

/-- A register index, 0 to 7: the value of a 3-bit field `rd`, `ra` or `rb` (10_state.md R10, R13).
Index N is named `rN`; the index that is called `rz` is the parameter `Config.rzChoice` (R12). -/
inductive Reg where
  | r0 | r1 | r2 | r3 | r4 | r5 | r6 | r7
  deriving DecidableEq, Repr

end Sys2Proof
end

