-- ==== Sys2Proof/Syntax.lean ====
section
/-! DEFINITION. The eight Hardware Instructions, one constructor for each row of spec/opcode_table.json. -/

namespace Sys2Proof

/-- An instruction with its operands. A register operand is an index, an immediate is the number written
in the assembler line (30_encoding.md R56, R64). The field `cond` has no place here: a word with
`cond` = 1 is no instruction of the model (R59), so every term stands for the unsuffixed form (R58). -/
inductive Instr where
  /-- MOVL, `movl rd, imm8` (40_immediate_moves.md R80). -/
  | movl (rd : Reg) (imm8 : Nat)
  /-- SETH, `seth rd, imm8` (40_immediate_moves.md R81). -/
  | seth (rd : Reg) (imm8 : Nat)
  /-- LDR, `ldr rd, [ra]` (41_load_store.md R90). -/
  | ldr (rd ra : Reg)
  /-- STR, `str rd, [ra]`; `rd` is the register stored (41_load_store.md R91). -/
  | str (rd ra : Reg)
  /-- AND, `and rd, ra, rb` (42_alu.md R100). -/
  | and (rd ra rb : Reg)
  /-- ORR, `orr rd, ra, rb` (42_alu.md R101). -/
  | orr (rd ra rb : Reg)
  /-- ADD, `add rd, ra, rb` (42_alu.md R102). -/
  | add (rd ra rb : Reg)
  /-- SUB, `sub rd, ra, rb` (42_alu.md R103). -/
  | sub (rd ra rb : Reg)
  deriving DecidableEq, Repr

end Sys2Proof
end

