-- ==== Sys2Proof/WellFormed.lean ====
section
/-! DEFINITION. Which terms of `Instr` the eight encodings can hold. -/

namespace Sys2Proof

/-- An immediate is in range: "imm8 is an integer between 0 and 255 (inclusive)" (30_encoding.md R56,
R68; for `seth` by decision D15). -/
def immInRange (imm8 : Nat) : Bool := decide (imm8 ≤ 255)

/-- The instruction has an encoding. The immediate's range is the only check: a register operand is an
index 0 to 7 by its type, and every index may stand in every register field (10_state.md R14). -/
def Instr.wellFormed : Instr → Bool
  | .movl _ imm8 => immInRange imm8
  | .seth _ imm8 => immInRange imm8
  | .ldr _ _ => true
  | .str _ _ => true
  | .and _ _ _ => true
  | .orr _ _ _ => true
  | .add _ _ _ => true
  | .sub _ _ _ => true

end Sys2Proof
end

