-- ==== Sys2Proof/Decode.lean ====
section
/-! DEFINITION. The decoder, total on 16-bit words and rejecting by name (30_encoding.md R57 to R62), and
after it the encoder (R71), both from the encoding tables of R53 to R57. -/

namespace Sys2Proof

/-- Why a word has no meaning: the closed list of 60_exceptions.md R131. -/
inductive RefuseReason where
  /-- The opcode is none of the eight listed (30_encoding.md R61). -/
  | unknownOpcode
  /-- A bit the format fixes at 0 is 1 (30_encoding.md R60). -/
  | reservedBits
  /-- The field `cond` is 1 (30_encoding.md R59). -/
  | cond1
  deriving DecidableEq, Repr

/-- What a word decodes to (30_encoding.md R62). -/
inductive Decoded where
  /-- One of the eight instructions with its fields. -/
  | instr (i : Instr)
  /-- Refused with a reason. -/
  | refused (reason : RefuseReason)
  deriving DecidableEq, Repr

/-- The mnemonics of the opcode map (30_encoding.md R57). -/
inductive Mnemonic where
  | MOVL | SETH | LDR | STR | AND | ORR | ADD | SUB
  deriving DecidableEq, Repr

/-- One row of the opcode map: a word `w` is the row's instruction when `w & mask = pattern`
(30_encoding.md R57; the table calls `pattern` match). -/
structure OpcodeRow where
  mnemonic : Mnemonic
  pattern : Word
  mask : Word
  deriving DecidableEq, Repr

/-- The opcode map, row by row (30_encoding.md R57, spec/opcode_table.json). -/
def opcodeTable : List OpcodeRow :=
  [ ⟨.MOVL, 0x0000, 0xF000⟩,
    ⟨.SETH, 0x2000, 0xF000⟩,
    ⟨.LDR,  0x4000, 0xF08F⟩,
    ⟨.STR,  0x7000, 0xF08F⟩,
    ⟨.AND,  0x8000, 0xF088⟩,
    ⟨.ORR,  0x9000, 0xF088⟩,
    ⟨.ADD,  0xA000, 0xF088⟩,
    ⟨.SUB,  0xB000, 0xF088⟩ ]

/-- The register with the index a 3-bit field holds (10_state.md R10). -/
def Reg.ofBits (b : BitVec 3) : Reg :=
  match b.toNat with
  | 0 => .r0
  | 1 => .r1
  | 2 => .r2
  | 3 => .r3
  | 4 => .r4
  | 5 => .r5
  | 6 => .r6
  | _ => .r7

/-- The 3-bit field that selects a register (10_state.md R10, R13). -/
def Reg.toBits : Reg → BitVec 3
  | .r0 => 0
  | .r1 => 1
  | .r2 => 2
  | .r3 => 3
  | .r4 => 4
  | .r5 => 5
  | .r6 => 6
  | .r7 => 7

/-- `op`, bits 15..12 (30_encoding.md R51). -/
def opField (w : Word) : BitVec 4 := w.extractLsb' 12 4

/-- `cond`, bit 11 (30_encoding.md R52). -/
def condField (w : Word) : Bool := w.getLsbD 11

/-- `rd`, bits 10..8 (30_encoding.md R53 to R55). -/
def rdField (w : Word) : Reg := Reg.ofBits (w.extractLsb' 8 3)

/-- `ra`, bits 6..4 (30_encoding.md R54, R55). -/
def raField (w : Word) : Reg := Reg.ofBits (w.extractLsb' 4 3)

/-- `rb`, bits 2..0 (30_encoding.md R55). -/
def rbField (w : Word) : Reg := Reg.ofBits (w.extractLsb' 0 3)

/-- `imm8`, bits 7..0, an unsigned number (30_encoding.md R53, R56). -/
def immField (w : Word) : Nat := (w.extractLsb' 0 8).toNat

/-- The instruction of a row with the fields of its format (30_encoding.md R62, part 4). -/
def buildInstr (m : Mnemonic) (w : Word) : Instr :=
  match m with
  | .MOVL => .movl (rdField w) (immField w)
  | .SETH => .seth (rdField w) (immField w)
  | .LDR => .ldr (rdField w) (raField w)
  | .STR => .str (rdField w) (raField w)
  | .AND => .and (rdField w) (raField w) (rbField w)
  | .ORR => .orr (rdField w) (raField w) (rbField w)
  | .ADD => .add (rdField w) (raField w) (rbField w)
  | .SUB => .sub (rdField w) (raField w) (rbField w)

/-- The row whose opcode a word carries (30_encoding.md R57, R62 part 1). -/
def opcodeRow (w : Word) : Option OpcodeRow :=
  opcodeTable.find? fun r => decide (opField r.pattern = opField w)

/-- Decoding, the three tests in the order of 30_encoding.md R62: the opcode, the fixed bits, `cond`. -/
def decode (w : Word) : Decoded :=
  match opcodeRow w with
  | none => .refused .unknownOpcode
  | some row =>
    if w &&& row.mask = row.pattern then
      if condField w then .refused .cond1 else .instr (buildInstr row.mnemonic w)
    else .refused .reservedBits

/-- The instruction the decoder reads from a row's bits, numbered as spec/opcode_table.json numbers them.
Every instruction is exactly one 16-bit word (30_encoding.md R50), so more than 16 bits are no
instruction (DESIGN CHOICE, log 22). -/
def decodeTableWord (nbits w : Nat) : Option Instr :=
  if nbits ≤ 16 then
    match decode (BitVec.ofNat 16 (w % 2 ^ nbits)) with
    | .instr i => some i
    | .refused _ => none
  else none

/-- A register operand's contribution at a bit position: `index << position` (30_encoding.md R71). -/
def regAt (r : Reg) (position : Nat) : Word := (r.toBits.setWidth 16) <<< position

/-- The word of a format I line: `op | rd << 8 | imm8` (30_encoding.md R71). -/
def encodeI (op : Word) (rd : Reg) (imm8 : Nat) : Word :=
  op ||| regAt rd 8 ||| BitVec.ofNat 16 imm8

/-- The word of a format M line: `op | rd << 8 | ra << 4` (30_encoding.md R71). -/
def encodeM (op : Word) (rd ra : Reg) : Word := op ||| regAt rd 8 ||| regAt ra 4

/-- The word of a format R line: `op | rd << 8 | ra << 4 | rb` (30_encoding.md R71). -/
def encodeR (op : Word) (rd ra rb : Reg) : Word :=
  op ||| regAt rd 8 ||| regAt ra 4 ||| regAt rb 0

/-- The word of a well-formed instruction (30_encoding.md R71, unsuffixed, so `cond` = 0 by R58). -/
def encode : Instr → Word
  | .movl rd imm8 => encodeI 0x0000 rd imm8
  | .seth rd imm8 => encodeI 0x2000 rd imm8
  | .ldr rd ra => encodeM 0x4000 rd ra
  | .str rd ra => encodeM 0x7000 rd ra
  | .and rd ra rb => encodeR 0x8000 rd ra rb
  | .orr rd ra rb => encodeR 0x9000 rd ra rb
  | .add rd ra rb => encodeR 0xA000 rd ra rb
  | .sub rd ra rb => encodeR 0xB000 rd ra rb

end Sys2Proof
end

