-- ==== Sys2Proof/Config.lean ====
section
/-! DEFINITION. What one machine fixes and the spec leaves open: constants with no body, so that no proof
can see a value and a claim holds for every choice (92_eei_decisions.md D1, D7, D9, D11). -/

namespace Sys2Proof

/-- The range of `RZ_INDEX`: {0, 4, 5, 6, 7}; the indices 1, 2 and 3 are shown by the source to be
`r1`, `r2` and `r3` (10_state.md R12, decision D1). -/
inductive RzIndex where
  | index0 | index4 | index5 | index6 | index7
  deriving DecidableEq, Repr, Inhabited

/-- The register index an `RZ_INDEX` value stands for. -/
def RzIndex.toReg : RzIndex → Reg
  | .index0 => .r0
  | .index4 => .r4
  | .index5 => .r5
  | .index6 => .r6
  | .index7 => .r7

/-- OPEN parameter `RZ_INDEX`: which index selects `rz` (10_state.md R12, D1; DESIGN CHOICE, log 5). -/
opaque Config.rzChoice : RzIndex

/-- What each general register holds after reset: unspecified, any value (10_state.md R27, D7; DESIGN
CHOICE, log 3). -/
opaque Config.resetReg : Reg → Word

/-- The flag C after reset: unspecified (10_state.md R27; DESIGN CHOICE, log 4). -/
opaque Config.resetC : Bool

/-- The flag V after reset: unspecified (10_state.md R27; DESIGN CHOICE, log 4). -/
opaque Config.resetV : Bool

/-- The flag N after reset: unspecified (10_state.md R27; DESIGN CHOICE, log 4). -/
opaque Config.resetN : Bool

/-- The flag Z after reset: unspecified (10_state.md R27; DESIGN CHOICE, log 4). -/
opaque Config.resetZ : Bool

/-- What the word at an address holds after reset when `IMAGE` does not reach it: unspecified, any
value, fixed at reset (10_state.md R28, D9; DESIGN CHOICE, log 2). -/
opaque Config.resetMem : Word → Word

/-- The free choice of `Fetch`: which of the words an address has held is fetched, for the n-th fetch
of a run, each choice made afresh (20_memory.md R43, D11; DESIGN CHOICE, log 9). -/
opaque Config.fetchChoice : Nat → Nat

end Sys2Proof
end

