-- ==== Sys2Proof/Machine/Cells.lean ====
section
/-! DEFINITION. Sparse data keyed by an address: a list of cells with strictly rising addresses, used for
memory and for the former contents of memory (10_state.md R23, R24). -/

namespace Sys2Proof.Machine

/-- The entry at a key, `none` when the key is not listed. -/
def lookupCell {α : Type} : List (Nat × α) → Nat → Option α
  | [], _ => none
  | (k, v) :: rest, key => if k = key then some v else lookupCell rest key

/-- The cells with the entry at one key replaced or added, the keys still rising. -/
def insertCell {α : Type} : List (Nat × α) → Nat → α → List (Nat × α)
  | [], key, x => [(key, x)]
  | (k, v) :: rest, key, x =>
    if key < k then (key, x) :: (k, v) :: rest
    else if key = k then (key, x) :: rest
    else (k, v) :: insertCell rest key x

/-- The cells without an entry at one key. -/
def removeCell {α : Type} : List (Nat × α) → Nat → List (Nat × α)
  | [], _ => []
  | (k, v) :: rest, key => if k = key then removeCell rest key else (k, v) :: removeCell rest key

/-- The keys are addresses (below 65,536, 20_memory.md R30) and strictly rising. -/
def risingCells {α : Type} : List (Nat × α) → Bool
  | [] => true
  | (k, _) :: rest => decide (k < 65536) && rest.all (fun c => decide (k < c.1)) && risingCells rest

/-- The contents of a memory word: `some v` when a store or the loaded image put `v` there, `none` while
it still holds its unspecified reset value (10_state.md R28; DESIGN CHOICE, log 2). -/
abbrev Content := Option Word

/-- The place of a content in the order that makes a set of contents one list. -/
def contentRank : Content → Nat
  | none => 0
  | some v => v.toNat + 1

/-- A set of contents with one more member; sets are lists of strictly rising rank. -/
def addContent : List Content → Content → List Content
  | [], c => [c]
  | d :: rest, c =>
    if contentRank c < contentRank d then c :: d :: rest
    else if c = d then d :: rest
    else d :: addContent rest c

/-- A set of contents without one member. -/
def dropContent : List Content → Content → List Content
  | [], _ => []
  | d :: rest, c => if d = c then dropContent rest c else d :: dropContent rest c

/-- The list of contents is a set in canonical form: strictly rising rank. -/
def risingContents : List Content → Bool
  | [] => true
  | c :: rest => rest.all (fun d => decide (contentRank c < contentRank d)) && risingContents rest

end Sys2Proof.Machine
end

