-- ==== Sys2Proof/Machine/RegIndex.lean ====
section
/-! DEFINITION. Which register index is `rz` (10_state.md R11, R12). -/

namespace Sys2Proof.Machine

/-- The index that selects `rz`, the parameter `RZ_INDEX` (10_state.md R12; DESIGN CHOICE, log 5). -/
def rzIndex : Reg := Config.rzChoice.toReg

/-- Whether an index selects `rz`. It is `decide (r = rzIndex)` for every index (lemma `isRz_eq_decide`);
the indices 1, 2 and 3 are answered without the parameter, since they are never `rz` (10_state.md R12). -/
def isRz : Reg → Bool
  | .r1 => false
  | .r2 => false
  | .r3 => false
  | r => decide (r = rzIndex)

end Sys2Proof.Machine
end

