-- ==== Sys2Proof/Machine/State.lean ====
section
/-! DEFINITION. The state of the machine as plain data (10_state.md R25), its reset (R26 to R29), and the
ways a step can stop (60_exceptions.md R130, R131). -/

namespace Sys2Proof.Machine

/-- The eight positions of the one register file, a cell for each index (10_state.md R10). The cell at
`rz`'s index is never read (R11; DESIGN CHOICE, log 6). -/
structure RegFile where
  r0 : Word
  r1 : Word
  r2 : Word
  r3 : Word
  r4 : Word
  r5 : Word
  r6 : Word
  r7 : Word
  deriving DecidableEq, Repr

/-- The four flags, four separate bits (10_state.md R18), in the order of the display `CVNZ`
(00_scope.md R6). -/
structure Flags where
  c : Bool
  v : Bool
  n : Bool
  z : Bool
  deriving DecidableEq, Repr

/-- The one memory, 16-bit words by word address (10_state.md R23, 20_memory.md R30). A cell is an address
and the whole word there, the smallest unit the hardware addresses (DESIGN CHOICE, log 1). An unlisted
address has the content `none`: its reset value, whatever that is (R28; DESIGN CHOICE, log 2). -/
abbrev Memory := List (Nat × Word)

/-- The canonical form of memory: word addresses, strictly rising (DESIGN CHOICE, log 1). -/
def Memory.wf (m : Memory) : Bool := risingCells m

/-- For each address whose contents a store has changed, the contents it had before, as a set, the current
one left out: with the current word these make up `held[a]` (10_state.md R24; DESIGN CHOICE, log 9). -/
abbrev Held := List (Nat × List Content)

/-- No instruction faults: the spec defines no exception, trap or interrupt (60_exceptions.md R130, R132),
so there is no fault to raise and nothing safe or unsafe to say of one (DEDUCED, log 24). -/
inductive Fault where
  deriving DecidableEq, Repr

/-- Why a step is refused: the closed list of 60_exceptions.md R131, with the address of the word. -/
inductive Refusal where
  /-- Raised by `exec`'s arms for an instruction without a meaning; none is left. Safe. -/
  | notModelled (mnemonic : String)
  /-- Raised by `step`: the fetched word's opcode is none of the eight (30_encoding.md R61). Safe: the
  model claims nothing of such a word. -/
  | unknownOpcode (address : Word)
  /-- Raised by `step`: the fetched word has a 1 where its format fixes a 0 (30_encoding.md R60). Safe. -/
  | reservedBits (address : Word)
  /-- Raised by `step`: the fetched word has `cond` = 1 (30_encoding.md R59). Safe. -/
  | cond1 (address : Word)
  deriving DecidableEq, Repr

/-- The state tuple of 10_state.md R25, and the model's counter of fetches. -/
structure State where
  /-- `x[0..7]` (R10). -/
  regs : RegFile
  /-- C, V, N, Z (R18). -/
  flags : Flags
  /-- The word address of the instruction to execute next (R15, R16). -/
  pc : Word
  /-- The one memory, code and data (R23). -/
  mem : Memory
  /-- The former contents of changed words, from which `held[a]` is read (R24). -/
  held : Held
  /-- The sticky mark `refused`: clear is `none`, else the reason and address (60_exceptions.md R131). -/
  refused : Option Refusal
  /-- The model's own: how many fetches were made, the argument of the free choice of a fetch (DESIGN
  CHOICE, log 10). -/
  fetches : Nat
  deriving DecidableEq, Repr

/-- The reset contents of one register cell: any value, 0 in the cell behind `rz` (10_state.md R27, R11). -/
def resetCell (r : Reg) : Word := if isRz r then 0 else Config.resetReg r

/-- The machine right after reset, with no image loaded (10_state.md R26 to R29, 70_reset_and_hazards.md
R150). `State.boot` adds the image the host loads (R151). -/
def State.reset : State where
  regs :=
    { r0 := resetCell .r0, r1 := resetCell .r1, r2 := resetCell .r2, r3 := resetCell .r3,
      r4 := resetCell .r4, r5 := resetCell .r5, r6 := resetCell .r6, r7 := resetCell .r7 }
  flags := { c := Config.resetC, v := Config.resetV, n := Config.resetN, z := Config.resetZ }
  pc := 0x0000
  mem := []
  held := []
  refused := none
  fetches := 0

end Sys2Proof.Machine
end

