-- ==== Sys2Proof/Machine/Flags.lean ====
section
/-! DEFINITION. The result and the four flags of AND, ORR, ADD and SUB (42_alu.md R100 to R103). -/

namespace Sys2Proof.Machine

/-- What an ALU operation computes: the 16-bit result and all four flags (10_state.md R19). -/
structure AluResult where
  value : Word
  flags : Flags
  deriving DecidableEq, Repr

/-- N: "1 if the result (viewed as a 2's complement integer) is negative, else 0", that is bit 15
(42_alu.md R100 to R103, 00_scope.md R8). -/
def flagN (r : Word) : Bool := r.getLsbD 15

/-- Z: "1 if the result is zero, else 0", of the 16-bit result (42_alu.md R100 to R103). -/
def flagZ (r : Word) : Bool := decide (r = 0)

/-- The flags of a bitwise operation: N and Z from the result, V and C "Always 0" (42_alu.md R100, R101). -/
def logicResult (r : Word) : AluResult :=
  { value := r, flags := { c := false, v := false, n := flagN r, z := flagZ r } }

/-- AND (42_alu.md R100). -/
def andResult (a b : Word) : AluResult := logicResult (a &&& b)

/-- ORR, the inclusive or (42_alu.md R101). -/
def orrResult (a b : Word) : AluResult := logicResult (a ||| b)

/-- The 17-bit sum of ADD, `zext_17(a) + zext_17(b)` (42_alu.md R102). -/
def sum17 (a b : Word) : BitVec 17 := a.setWidth 17 + b.setWidth 17

/-- The 17-bit sum of SUB, `zext_17(a) + zext_17(~b) + 1` (42_alu.md R103). -/
def diff17 (a b : Word) : BitVec 17 := a.setWidth 17 + (~~~b).setWidth 17 + 1

/-- ADD's V: "the inputs have the same sign, but the result has the opposite sign" (42_alu.md R102). -/
def addOverflow (a b r : Word) : Bool :=
  decide (a.getLsbD 15 = b.getLsbD 15) && decide (r.getLsbD 15 ≠ a.getLsbD 15)

/-- SUB's V: "the inputs have opposite signs, and the result has the same sign as rb" (42_alu.md R103). -/
def subOverflow (a b r : Word) : Bool :=
  decide (a.getLsbD 15 ≠ b.getLsbD 15) && decide (r.getLsbD 15 = b.getLsbD 15)

/-- ADD: the low 16 bits of the sum, C its bit 16 (42_alu.md R102). -/
def addResult (a b : Word) : AluResult :=
  let s := sum17 a b
  let r := s.extractLsb' 0 16
  { value := r, flags := { c := s.getLsbD 16, v := addOverflow a b r, n := flagN r, z := flagZ r } }

/-- SUB: the low 16 bits of `a + ~b + 1`, C its carry, not a borrow (42_alu.md R103, 90_conflicts.md C2;
DEDUCED, log 15). -/
def subResult (a b : Word) : AluResult :=
  let s := diff17 a b
  let r := s.extractLsb' 0 16
  { value := r, flags := { c := s.getLsbD 16, v := subOverflow a b r, n := flagN r, z := flagZ r } }

end Sys2Proof.Machine
end

