-- ==== Sys2Proof/Machine/Operands.lean ====
section
/-! DEFINITION. Every operand form: registers, the zero register, the two uses of the immediate, the one
addressing mode (10_state.md R10 to R14, 30_encoding.md R56, 41_load_store.md R92). -/

namespace Sys2Proof.Machine

/-- The contents of one cell of the register file. -/
def RegFile.cell (f : RegFile) : Reg → Word
  | .r0 => f.r0
  | .r1 => f.r1
  | .r2 => f.r2
  | .r3 => f.r3
  | .r4 => f.r4
  | .r5 => f.r5
  | .r6 => f.r6
  | .r7 => f.r7

/-- The register file with one cell replaced. -/
def RegFile.setCell (f : RegFile) (r : Reg) (x : Word) : RegFile :=
  match r with
  | .r0 => { f with r0 := x }
  | .r1 => { f with r1 := x }
  | .r2 => { f with r2 := x }
  | .r3 => { f with r3 := x }
  | .r4 => { f with r4 := x }
  | .r5 => { f with r5 := x }
  | .r6 => { f with r6 := x }
  | .r7 => { f with r7 := x }

/-- `x[r]`: the contents of a general register, 0x0000 always for `rz` (10_state.md R11). -/
def State.getReg (s : State) (r : Reg) : Word := if isRz r then 0 else s.regs.cell r

/-- `x[r] <- x`: a register write, lost when `r` is `rz`, whose cell keeps its contents (10_state.md R11).
-/
def State.setReg (s : State) (r : Reg) (x : Word) : State :=
  { s with regs := s.regs.setCell r (if isRz r then s.regs.cell r else x) }

/-- The 8 bits of an immediate (30_encoding.md R56); a number above 255 is in no encoding (DESIGN CHOICE,
log 20). -/
def immBits (imm8 : Nat) : BitVec 8 := BitVec.ofNat 8 imm8

/-- MOVL's use of the immediate: `zext_16(imm8)` (30_encoding.md R56, 40_immediate_moves.md R80). -/
def lowByteOnly (imm8 : Nat) : Word := (immBits imm8).setWidth 16

/-- SETH's use of the immediate: the high byte above the old low byte, `(imm8 << 8) | (old & 0xff)`
(40_immediate_moves.md R81). -/
def withHighByte (imm8 : Nat) (old : Word) : Word := (lowByteOnly imm8 <<< 8) ||| (old &&& 0x00FF)

/-- The effective address of `[ra]`: all 16 bits of the register, unchanged (41_load_store.md R92). -/
def State.effectiveAddress (s : State) (ra : Reg) : Word := s.getReg ra

end Sys2Proof.Machine
end

