-- ==== Sys2Proof/Machine/Ops.lean ====
section
/-! DEFINITION. The named operations over memory, flags and the program counter, the fetch, the load of an
image and the refusal. The spec has no exception to take and none to return from (60_exceptions.md R130,
R133, R134): a refusal (R131) is the only way a step does not go on. -/

namespace Sys2Proof.Machine

/-- The word a content stands for at an address; the unspecified reset value is `Config.resetMem`
(10_state.md R28; DESIGN CHOICE, log 2). -/
def contentValue (a : Word) : Content → Word
  | some v => v
  | none => Config.resetMem a

/-- What memory holds at an address, as listed. -/
def State.contentAt (s : State) (a : Word) : Content := lookupCell s.mem a.toNat

/-- `MemRead(a, 16)`: `mem[a]`, with no change of state (20_memory.md R35). -/
def State.memRead (s : State) (a : Word) : Word := contentValue a (s.contentAt a)

/-- The contents an address had before its current one (10_state.md R24). -/
def State.formerAt (s : State) (a : Word) : List Content := (lookupCell s.held a.toNat).getD []

/-- `held[a]`, the values `mem[a]` has had since reset, the current one first (10_state.md R24). -/
def State.heldAt (s : State) (a : Word) : List Word :=
  s.memRead a :: (s.formerAt a).map (contentValue a)

/-- The former contents after a store of `v` over the content `old`: `old` joins them and `v`, now the
current one, leaves them. -/
def formerAfterStore (former : List Content) (old : Content) (v : Word) : List Content :=
  addContent (dropContent former (some v)) old

/-- `MemWrite(a, 16, v)`: `mem[a] <- v`, and `v` joins `held[a]` (20_memory.md R36). A store of the value
already listed changes nothing (R46). -/
def State.memWrite (s : State) (a v : Word) : State :=
  { s with
    mem := insertCell s.mem a.toNat v
    held :=
      if s.contentAt a = some v then s.held
      else insertCell s.held a.toNat (formerAfterStore (s.formerAt a) (s.contentAt a) v) }

/-- `Fetch(a)` with the choice `n` made: a member of `held[a]`, each member for some `n`; the current word
when the contents never changed (20_memory.md R43). -/
def State.fetchChoosing (s : State) (n : Nat) (a : Word) : Word :=
  match s.formerAt a with
  | [] => s.memRead a
  | _ :: _ => (s.heldAt a).getD (n % (s.heldAt a).length) (s.memRead a)

/-- `Fetch(pc)`, its choice free and made afresh at each fetch (20_memory.md R43, D11; DESIGN CHOICE, log
9). -/
def State.fetch (s : State) : Word := s.fetchChoosing (Config.fetchChoice s.fetches) s.pc

/-- The fetch has been made: the next one makes a choice of its own (DESIGN CHOICE, log 10). -/
def State.countFetch (s : State) : State := { s with fetches := s.fetches + 1 }

/-- `pc <- (pc + 1) mod 65536`, the common increment (10_state.md R17). -/
def State.advancePc (s : State) : State := { s with pc := s.pc + 1 }

/-- All four flags written at once (10_state.md R19). -/
def State.setFlags (s : State) (f : Flags) : State := { s with flags := f }

/-- `refuse(reason)`: the sticky mark with its reason and address; nothing else changes (60_exceptions.md
R131; DESIGN CHOICE, log 12). -/
def State.refuse (s : State) (r : Refusal) : State := { s with refused := some r }

/-- The refusal of a word by its reason, with the word's address (60_exceptions.md R131). -/
def refusalAt (a : Word) : RefuseReason → Refusal
  | .unknownOpcode => .unknownOpcode a
  | .reservedBits => .reservedBits a
  | .cond1 => .cond1 a

/-- The host places one word before reset is released: `mem[a] = w` and `held[a]` = {`w`}
(10_state.md R28, 70_reset_and_hazards.md R151; DESIGN CHOICE, log 13). -/
def State.place (s : State) (a w : Word) : State :=
  { s with mem := insertCell s.mem a.toNat w, held := removeCell s.held a.toNat }

/-- The host places words from the address `k` upward; a word that would stand past the last address has
no place (DESIGN CHOICE, log 13). -/
def State.loadFrom (s : State) (k : Nat) : List Word → State
  | [] => s
  | w :: rest =>
    if k < 65536 then (s.place (BitVec.ofNat 16 k) w).loadFrom (k + 1) rest else s

/-- The host loads `IMAGE`, its first word at address 0 (70_reset_and_hazards.md R151). -/
def State.load (s : State) (image : List Word) : State := s.loadFrom 0 image

/-- The shared shape of AND, ORR, ADD and SUB: both sources read, then the flags and the destination
written from the one result, the flags also when the destination is `rz` (00_scope.md R5, 42_alu.md R104).
-/
def State.aluOp (s : State) (op : Word → Word → AluResult) (rd ra rb : Reg) : State :=
  let res := op (s.getReg ra) (s.getReg rb)
  ((s.setReg rd res.value).setFlags res.flags).advancePc

end Sys2Proof.Machine
end

