-- ==== Sys2Proof/Machine/Alu.lean ====
section
/-! DEFINITION. AND, ORR, ADD and SUB (42_alu.md R100 to R104). -/

namespace Sys2Proof.Machine

/-- AND (42_alu.md R100). -/
def execAnd (rd ra rb : Reg) (s : State) : Host.Outcome State Fault Refusal :=
  .next (s.aluOp andResult rd ra rb)

/-- ORR (42_alu.md R101). -/
def execOrr (rd ra rb : Reg) (s : State) : Host.Outcome State Fault Refusal :=
  .next (s.aluOp orrResult rd ra rb)

/-- ADD (42_alu.md R102). -/
def execAdd (rd ra rb : Reg) (s : State) : Host.Outcome State Fault Refusal :=
  .next (s.aluOp addResult rd ra rb)

/-- SUB (42_alu.md R103). -/
def execSub (rd ra rb : Reg) (s : State) : Host.Outcome State Fault Refusal :=
  .next (s.aluOp subResult rd ra rb)

end Sys2Proof.Machine
end

