-- ==== Sys2Proof/Machine/ImmediateMoves.lean ====
section
/-! DEFINITION. MOVL and SETH (40_immediate_moves.md R80, R81). -/

namespace Sys2Proof.Machine

/-- MOVL: `x[rd] <- zext_16(imm8)`; the flags are unchanged (40_immediate_moves.md R80). -/
def execMovl (rd : Reg) (imm8 : Nat) (s : State) : Host.Outcome State Fault Refusal :=
  .next (s.setReg rd (lowByteOnly imm8)).advancePc

/-- SETH: `x[rd] <- (imm8 << 8) | (x[rd] & 0xff)`; the flags are unchanged (40_immediate_moves.md R81). -/
def execSeth (rd : Reg) (imm8 : Nat) (s : State) : Host.Outcome State Fault Refusal :=
  .next (s.setReg rd (withHighByte imm8 (s.getReg rd))).advancePc

end Sys2Proof.Machine
end

