-- ==== Sys2Proof/Machine/LoadStore.lean ====
section
/-! DEFINITION. LDR and STR (41_load_store.md R90, R91). -/

namespace Sys2Proof.Machine

/-- LDR: `x[rd] <- mem[x[ra]]`, a data read, so always the latest store; the flags are unchanged
(41_load_store.md R90). -/
def execLdr (rd ra : Reg) (s : State) : Host.Outcome State Fault Refusal :=
  .next (s.setReg rd (s.memRead (s.effectiveAddress ra))).advancePc

/-- STR: `mem[x[ra]] <- x[rd]`; no register is written and the flags are unchanged (41_load_store.md R91,
90_conflicts.md C3). -/
def execStr (rd ra : Reg) (s : State) : Host.Outcome State Fault Refusal :=
  .next (s.memWrite (s.effectiveAddress ra) (s.getReg rd)).advancePc

end Sys2Proof.Machine
end

