-- ==== Sys2Proof/Machine/Dispatch.lean ====
section
/-! DEFINITION. One arm for each instruction, in the order of the opcode map (30_encoding.md R57). -/

namespace Sys2Proof.Machine

def exec (i : Instr) (s : State) : Host.Outcome State Fault Refusal :=
  match i with
  | .movl rd imm8 => Sys2Proof.Machine.execMovl rd imm8 s
  | .seth rd imm8 => Sys2Proof.Machine.execSeth rd imm8 s
  | .ldr rd ra => Sys2Proof.Machine.execLdr rd ra s
  | .str rd ra => Sys2Proof.Machine.execStr rd ra s
  | .and rd ra rb => Sys2Proof.Machine.execAnd rd ra rb s
  | .orr rd ra rb => Sys2Proof.Machine.execOrr rd ra rb s
  | .add rd ra rb => Sys2Proof.Machine.execAdd rd ra rb s
  | .sub rd ra rb => Sys2Proof.Machine.execSub rd ra rb s

end Sys2Proof.Machine
end

