-- ==== Sys2Proof/Machine/Step.lean ====
section
/-! DEFINITION. One step of the machine: fetch, decode, and the instruction's rule or the refusal
(60_exceptions.md R138). -/

namespace Sys2Proof.Machine

/-- One step: `w <- Fetch(pc)`, decode `w`, refuse it or perform its rule (60_exceptions.md R138). The
machine whose mark is set stays refused (R131). -/
def step (s : State) : Host.Outcome State Fault Refusal :=
  match s.refused with
  | some r => .refused r
  | none =>
    match decode s.fetch with
    | .refused reason => .refused (refusalAt s.pc reason)
    | .instr i => exec i s.countFetch

/-- The state with an instruction's word placed at `pc`, as the host places a word of `IMAGE` before reset
is released (70_reset_and_hazards.md R151; DESIGN CHOICE, log 13), so that the next step fetches exactly
it; the mark `refused`, which would keep the step from fetching, is clear as after reset (10_state.md
R29). -/
def State.withFetchWord (s : State) (nbits w : Nat) : State :=
  { s.place s.pc (BitVec.ofNat 16 (w % 2 ^ nbits)) with refused := none }

end Sys2Proof.Machine
end

