-- ==== Sys2Proof/Machine/Assembler.lean ====
section
/-! DEFINITION. The assembler: one line of text to one word (30_encoding.md R64 to R71, 92_eei_decisions.md
D15; DESIGN CHOICE, log 21). It is no part of a step. -/

namespace Sys2Proof.Machine

/-- A register operand as written: `rz`, or `rN` for index N (30_encoding.md R66, 10_state.md R13). -/
inductive RegName where
  | rz
  | numbered (index : Reg)
  deriving DecidableEq, Repr

/-- One instruction as written, the destination first; `{rd,}` may be left out where the syntax line allows
it (30_encoding.md R64, 00_scope.md R3). Only unsuffixed mnemonics exist (R69, D3). -/
inductive AsmLine where
  | movl (rd : RegName) (imm8 : Nat)
  | seth (rd : RegName) (imm8 : Nat)
  | ldr (rd ra : RegName)
  | str (rd ra : RegName)
  | and (rd : Option RegName) (ra rb : RegName)
  | orr (rd : Option RegName) (ra rb : RegName)
  | add (rd : Option RegName) (ra rb : RegName)
  | sub (rd : Option RegName) (ra rb : RegName)
  deriving DecidableEq, Repr

/-- The index a name selects: `RZ_INDEX` for `rz` (30_encoding.md R71), N for `rN`, which is a name of
every index but `RZ_INDEX` (10_state.md R13; DESIGN CHOICE, log 21). -/
def RegName.index : RegName → Option Reg
  | .rz => some rzIndex
  | .numbered r => if isRz r then none else some r

/-- The instruction, if it has an encoding: an immediate out of range is an assembly error (30_encoding.md
R68, D15). -/
def checked (i : Instr) : Option Instr := if i.wellFormed then some i else none

/-- The destination of a format R line: "rd defaults to ra if not present" (30_encoding.md R67). -/
def destination (rd : Option RegName) (ra : RegName) : RegName := rd.getD ra

/-- The three register fields of a format R line. -/
def assembleR (build : Reg → Reg → Reg → Instr) (rd : Option RegName) (ra rb : RegName) : Option Instr :=
  match (destination rd ra).index, ra.index, rb.index with
  | some d, some a, some b => checked (build d a b)
  | _, _, _ => none

/-- The two register fields of a format M line. -/
def assembleM (build : Reg → Reg → Instr) (rd ra : RegName) : Option Instr :=
  match rd.index, ra.index with
  | some d, some a => checked (build d a)
  | _, _ => none

/-- The register field and the immediate of a format I line. -/
def assembleI (build : Reg → Nat → Instr) (rd : RegName) (imm8 : Nat) : Option Instr :=
  match rd.index with
  | some d => checked (build d imm8)
  | none => none

/-- One line to its instruction (30_encoding.md R64, R67, R68, R71). -/
def assemble : AsmLine → Option Instr
  | .movl rd imm8 => assembleI .movl rd imm8
  | .seth rd imm8 => assembleI .seth rd imm8
  | .ldr rd ra => assembleM .ldr rd ra
  | .str rd ra => assembleM .str rd ra
  | .and rd ra rb => assembleR .and rd ra rb
  | .orr rd ra rb => assembleR .orr rd ra rb
  | .add rd ra rb => assembleR .add rd ra rb
  | .sub rd ra rb => assembleR .sub rd ra rb

/-- A space or a tab (DESIGN CHOICE, log 21). -/
def isBlank (c : Char) : Bool := c == ' ' || c == '\t'

/-- The text without blanks at its two ends. -/
def trimBlanks (cs : List Char) : List Char :=
  ((cs.dropWhile isBlank).reverse.dropWhile isBlank).reverse

/-- The line up to its comment, which `@` opens (30_encoding.md R65). -/
def stripComment (cs : List Char) : List Char := cs.takeWhile (· != '@')

/-- The pieces between commas. -/
def splitCommas : List Char → List (List Char)
  | [] => [[]]
  | c :: rest =>
    if c == ',' then [] :: splitCommas rest
    else
      match splitCommas rest with
      | [] => [[c]]
      | p :: ps => (c :: p) :: ps

/-- The value of a digit in a base up to 16. -/
def digitValue (c : Char) : Option Nat :=
  if '0' ≤ c ∧ c ≤ '9' then some (c.toNat - '0'.toNat)
  else if 'a' ≤ c ∧ c ≤ 'f' then some (c.toNat - 'a'.toNat + 10)
  else if 'A' ≤ c ∧ c ≤ 'F' then some (c.toNat - 'A'.toNat + 10)
  else none

/-- The number a row of digits denotes, after the digits already read. -/
def digitsFrom (base : Nat) (acc : Nat) : List Char → Option Nat
  | [] => some acc
  | c :: rest =>
    match digitValue c with
    | some d => if d < base then digitsFrom base (acc * base + d) rest else none
    | none => none

/-- A numeral: decimal, or hexadecimal after `0x` (30_encoding.md R68); at least one digit. -/
def parseNumeral : List Char → Option Nat
  | [] => none
  | '0' :: 'x' :: [] => none
  | '0' :: 'x' :: ds => digitsFrom 16 0 ds
  | ds => digitsFrom 10 0 ds

/-- A register name, lower case only (30_encoding.md R66, D15). -/
def parseReg : List Char → Option RegName
  | ['r', 'z'] => some .rz
  | ['r', '0'] => some (.numbered .r0)
  | ['r', '1'] => some (.numbered .r1)
  | ['r', '2'] => some (.numbered .r2)
  | ['r', '3'] => some (.numbered .r3)
  | ['r', '4'] => some (.numbered .r4)
  | ['r', '5'] => some (.numbered .r5)
  | ['r', '6'] => some (.numbered .r6)
  | ['r', '7'] => some (.numbered .r7)
  | _ => none

/-- A memory operand `[ra]` (00_scope.md R4, 30_encoding.md R64). The spec does not say whether blanks may
stand inside the brackets; the model accepts them, `[ r1 ]` as `[r1]` (DESIGN CHOICE, log 21). -/
def parseMem : List Char → Option RegName
  | '[' :: rest =>
    match rest.reverse with
    | ']' :: inner => parseReg (trimBlanks inner.reverse)
    | _ => none
  | _ => none

/-- The operands of a format I line: `rd, imm8`. -/
def operandsI (line : RegName → Nat → AsmLine) : List (List Char) → Option AsmLine
  | [d, i] =>
    match parseReg d, parseNumeral i with
    | some rd, some imm8 => some (line rd imm8)
    | _, _ => none
  | _ => none

/-- The operands of a format M line: `rd, [ra]`. -/
def operandsM (line : RegName → RegName → AsmLine) : List (List Char) → Option AsmLine
  | [d, a] =>
    match parseReg d, parseMem a with
    | some rd, some ra => some (line rd ra)
    | _, _ => none
  | _ => none

/-- The operands of a format R line: `{rd,} ra, rb` (30_encoding.md R67). -/
def operandsR (line : Option RegName → RegName → RegName → AsmLine) : List (List Char) → Option AsmLine
  | [a, b] =>
    match parseReg a, parseReg b with
    | some ra, some rb => some (line none ra rb)
    | _, _ => none
  | [d, a, b] =>
    match parseReg d, parseReg a, parseReg b with
    | some rd, some ra, some rb => some (line (some rd) ra rb)
    | _, _, _ => none
  | _ => none

/-- The operands of the eight mnemonics, lower case only; any other mnemonic, a suffixed one among them, is
an assembly error (30_encoding.md R64, R69, R70, D15). -/
def parseOperands (mnemonic : List Char) (ops : List (List Char)) : Option AsmLine :=
  match mnemonic with
  | ['m', 'o', 'v', 'l'] => operandsI .movl ops
  | ['s', 'e', 't', 'h'] => operandsI .seth ops
  | ['l', 'd', 'r'] => operandsM .ldr ops
  | ['s', 't', 'r'] => operandsM .str ops
  | ['a', 'n', 'd'] => operandsR .and ops
  | ['o', 'r', 'r'] => operandsR .orr ops
  | ['a', 'd', 'd'] => operandsR .add ops
  | ['s', 'u', 'b'] => operandsR .sub ops
  | _ => none

/-- One line of text: `some none` for an empty line or a comment alone, `none` for an assembly error
(30_encoding.md R64, R65). -/
def parseLine (text : List Char) : Option (Option AsmLine) :=
  match trimBlanks (stripComment text) with
  | [] => some none
  | body =>
    let mnemonic := body.takeWhile (fun c => !isBlank c)
    let rest := body.dropWhile (fun c => !isBlank c)
    (parseOperands mnemonic ((splitCommas rest).map trimBlanks)).map some

/-- A program text to its words: each line at the next word address, the first at address 0, so the list is
the image (30_encoding.md R71); `none` when any line is in error. -/
def assembleText : List (List Char) → Option (List Word)
  | [] => some []
  | line :: rest =>
    match parseLine line, assembleText rest with
    | some none, some ws => some ws
    | some (some l), some ws => (assemble l).map fun i => encode i :: ws
    | _, _ => none

end Sys2Proof.Machine
end

