-- ==== Sys2Proof/Machine/Run.lean ====
section
/-! DEFINITION. Boot, and a run up to `HALT_PC` (70_reset_and_hazards.md R150 to R152). -/

namespace Sys2Proof.Machine

/-- The machine at the release of reset with the host's image in memory (70_reset_and_hazards.md R150,
R151). -/
def State.boot (image : List Word) : State := State.reset.load image

/-- The words of `IMAGE`: a program's code, and the data it needs as the words after the code
(70_reset_and_hazards.md R151). -/
def imageWords (code data : List Word) : List Word := code ++ data

/-- The default `HALT_PC`: the number of words of CODE in the image, that is the address after the last
instruction; the data after the code do not count (70_reset_and_hazards.md R152, D10; DESIGN CHOICE,
log 14). -/
def defaultHaltPc (code : List Word) : Word := BitVec.ofNat 16 code.length

/-- How a run stands (70_reset_and_hazards.md R152). -/
inductive RunEnd where
  /-- The run is over: `pc` = `HALT_PC` at the start of a step; this is the final state. -/
  | over (final : State)
  /-- The run was refused: the state carries the mark; it is no final state. -/
  | refused (marked : State)
  /-- Neither yet, after the given number of steps. -/
  | running (s : State)
  deriving DecidableEq, Repr

/-- A run of at most `n` steps. A refused machine is not over, whatever its `pc`; otherwise the run is over
when `pc` = `HALT_PC`, and no fetch is made there (70_reset_and_hazards.md R152, 60_exceptions.md R131;
DESIGN CHOICE, log 14). -/
def run (haltPc : Word) : Nat → State → RunEnd
  | 0, s =>
    match s.refused with
    | some _ => .refused s
    | none => if s.pc = haltPc then .over s else .running s
  | n + 1, s =>
    match s.refused with
    | some _ => .refused s
    | none =>
      if s.pc = haltPc then .over s
      else
        match step s with
        | .next t => run haltPc n t
        | .refused r => .refused (s.refuse r)
        | .fault f => nomatch f

/-- The run of a program with the default `HALT_PC`, from boot, in at most `n` steps
(70_reset_and_hazards.md R151, R152). -/
def runProgram (code data : List Word) (n : Nat) : RunEnd :=
  run (defaultHaltPc code) n (State.boot (imageWords code data))

end Sys2Proof.Machine
end

