-- ==== Sys2Proof/Safety.lean ====
section
/-! DEFINITION. The terms claims are stated in: the invariant of the state, what an instruction leaves
alone, and what counts as a completed run. -/

namespace Sys2Proof.Machine

/-- One entry of `held` is a set of former contents: not empty, in canonical form, without the current
content of its address, which a store has listed (10_state.md R24; DESIGN CHOICE, log 9). -/
def heldEntryOk (m : Memory) (e : Nat × List Content) : Bool :=
  !e.2.isEmpty && risingContents e.2 && (lookupCell m e.1).isSome && !e.2.contains (lookupCell m e.1)

/-- The canonical form of `held` beside a memory. -/
def Held.wf (m : Memory) (h : Held) : Bool := risingCells h && h.all (heldEntryOk m)

/-- The invariant of the state: memory and its former contents are in canonical form, and the cell behind
`rz` holds 0 (logs 1, 6, 9). -/
structure State.Inv (s : State) : Prop where
  mem_wf : Memory.wf s.mem = true
  held_wf : Held.wf s.mem s.held = true
  rz_cell : s.regs.cell rzIndex = 0

/-- Every word of memory reads as before, and every address has held the same words. -/
def MemoryUnchanged (s t : State) : Prop :=
  ∀ a : Word, t.memRead a = s.memRead a ∧ ∀ v : Word, v ∈ t.heldAt a ↔ v ∈ s.heldAt a

/-- Every general register reads as before. -/
def RegistersUnchanged (s t : State) : Prop := ∀ r : Reg, t.getReg r = s.getReg r

/-- Every general register but one reads as before, and that one reads as given, unless it is `rz`, which
reads 0 (10_state.md R11, R14). -/
def OnlyRegisterWritten (s t : State) (rd : Reg) (x : Word) : Prop :=
  ∀ r : Reg, t.getReg r = if r = rd ∧ r ≠ rzIndex then x else s.getReg r

/-- What every instruction does beside its own effect: `pc` counts on by one word modulo 65536, and neither
the mark nor the choice of a fetch is touched (10_state.md R17, R24, 60_exceptions.md R131). -/
structure CommonEffect (s t : State) : Prop where
  pc_next : t.pc.toNat = (s.pc.toNat + 1) % 65536
  mark : t.refused = s.refused
  choice : t.fetches = s.fetches

/-- The instructions that write the flags (10_state.md R19). -/
def writesFlags : Instr → Bool
  | .movl _ _ => false
  | .seth _ _ => false
  | .ldr _ _ => false
  | .str _ _ => false
  | .and _ _ _ => true
  | .orr _ _ _ => true
  | .add _ _ _ => true
  | .sub _ _ _ => true

/-- The instructions that write memory: STR alone (20_memory.md R42). -/
def writesMemory : Instr → Bool
  | .movl _ _ => false
  | .seth _ _ => false
  | .ldr _ _ => false
  | .str _ _ => true
  | .and _ _ _ => false
  | .orr _ _ _ => false
  | .add _ _ _ => false
  | .sub _ _ _ => false

/-- The general registers an instruction writes (10_state.md R14). -/
def registersWritten : Instr → List Reg
  | .movl rd _ => [rd]
  | .seth rd _ => [rd]
  | .ldr rd _ => [rd]
  | .str _ _ => []
  | .and rd _ _ => [rd]
  | .orr rd _ _ => [rd]
  | .add rd _ _ => [rd]
  | .sub rd _ _ => [rd]

/-- The general registers an instruction reads (10_state.md R14). -/
def registersRead : Instr → List Reg
  | .movl _ _ => []
  | .seth rd _ => [rd]
  | .ldr _ ra => [ra]
  | .str rd ra => [rd, ra]
  | .and _ ra rb => [ra, rb]
  | .orr _ ra rb => [ra, rb]
  | .add _ ra rb => [ra, rb]
  | .sub _ ra rb => [ra, rb]

/-- The fetch from an address has one possible outcome: its contents never changed since reset
(20_memory.md R43, 70_reset_and_hazards.md R153). -/
def FetchSettled (s : State) (a : Word) : Prop := s.formerAt a = []

/-- A run of at most `n` steps ends at `HALT_PC` with a final state (70_reset_and_hazards.md R152). -/
def Completes (haltPc : Word) (n : Nat) (s final : State) : Prop := run haltPc n s = .over final

end Sys2Proof.Machine
end

