-- ==== Sys2Proof/Certificates/Slice0/Obligations.lean ====
section
/-! DEFINITION. The statements about the machine, each from the rules of spec/ its docstring names. -/

open Sys2Proof Sys2Proof.Machine

/-! ## What each instruction does, and what it leaves alone -/

/-- MOVL (40_immediate_moves.md R80): the word `0x0000 | rd << 8 | imm8` is the instruction; it runs, `rd`
gets the zero-extended immediate, and nothing else changes but `pc`. That `pc` wraps at 0xFFFF, here and in
every statement with `CommonEffect`, is the spec's decision D5 (log 7). -/
def Obligations.MovlWritesZeroExtendedImmediate : Prop :=
  ∀ (rd : Reg) (imm8 : Nat) (s : State), imm8 ≤ 255 →
    decode (BitVec.ofNat 16 (rd.toBits.toNat * 256 + imm8)) = .instr (.movl rd imm8) ∧
    ∃ t, exec (.movl rd imm8) s = .next t ∧
      OnlyRegisterWritten s t rd (BitVec.ofNat 16 imm8) ∧ t.flags = s.flags ∧
      MemoryUnchanged s t ∧ CommonEffect s t

/-- SETH (40_immediate_moves.md R81): the immediate becomes the high byte of `rd`, whose low byte is kept.
-/
def Obligations.SethReplacesHighByte : Prop :=
  ∀ (rd : Reg) (imm8 : Nat) (s : State), imm8 ≤ 255 →
    decode (BitVec.ofNat 16 (0x2000 + rd.toBits.toNat * 256 + imm8)) = .instr (.seth rd imm8) ∧
    ∃ t, exec (.seth rd imm8) s = .next t ∧
      OnlyRegisterWritten s t rd (BitVec.ofNat 16 (imm8 * 256 + (s.getReg rd).toNat % 256)) ∧
      t.flags = s.flags ∧ MemoryUnchanged s t ∧ CommonEffect s t

/-- LDR (41_load_store.md R90): `rd` gets the word at the address in `ra`, read before `rd` is written. -/
def Obligations.LdrLoadsAddressedWord : Prop :=
  ∀ (rd ra : Reg) (s : State),
    decode (BitVec.ofNat 16 (0x4000 + rd.toBits.toNat * 256 + ra.toBits.toNat * 16)) =
      .instr (.ldr rd ra) ∧
    ∃ t, exec (.ldr rd ra) s = .next t ∧
      OnlyRegisterWritten s t rd (s.memRead (s.getReg ra)) ∧ t.flags = s.flags ∧
      MemoryUnchanged s t ∧ CommonEffect s t

/-- STR (41_load_store.md R91): the word at the address in `ra` becomes the contents of `rd`, which joins
the words that address has held; every other address, the registers and the flags are as before. -/
def Obligations.StrStoresRegister : Prop :=
  ∀ (rd ra : Reg) (s : State),
    decode (BitVec.ofNat 16 (0x7000 + rd.toBits.toNat * 256 + ra.toBits.toNat * 16)) =
      .instr (.str rd ra) ∧
    s.effectiveAddress ra = s.getReg ra ∧
    ∃ t, exec (.str rd ra) s = .next t ∧
      t.memRead (s.effectiveAddress ra) = s.getReg rd ∧
      (∀ a, a ≠ s.effectiveAddress ra → t.memRead a = s.memRead a) ∧
      (∀ a v, v ∈ t.heldAt a ↔ v ∈ s.heldAt a ∨ (a = s.effectiveAddress ra ∧ v = s.getReg rd)) ∧
      RegistersUnchanged s t ∧ t.flags = s.flags ∧ CommonEffect s t

/-- AND (42_alu.md R100): bitwise, Z and N from the result, V and C always 0. -/
def Obligations.AndWritesResultAndFlags : Prop :=
  ∀ (rd ra rb : Reg) (s : State),
    decode (BitVec.ofNat 16
        (0x8000 + rd.toBits.toNat * 256 + ra.toBits.toNat * 16 + rb.toBits.toNat)) =
      .instr (.and rd ra rb) ∧
    ∃ (t : State) (r : Word), exec (.and rd ra rb) s = .next t ∧
      (∀ k, r.getLsbD k = ((s.getReg ra).getLsbD k && (s.getReg rb).getLsbD k)) ∧
      OnlyRegisterWritten s t rd r ∧
      t.flags = { c := false, v := false, n := decide (r.toInt < 0), z := decide (r.toNat = 0) } ∧
      MemoryUnchanged s t ∧ CommonEffect s t

/-- ORR (42_alu.md R101): bitwise inclusive or, Z and N from the result, V and C always 0. -/
def Obligations.OrrWritesResultAndFlags : Prop :=
  ∀ (rd ra rb : Reg) (s : State),
    decode (BitVec.ofNat 16
        (0x9000 + rd.toBits.toNat * 256 + ra.toBits.toNat * 16 + rb.toBits.toNat)) =
      .instr (.orr rd ra rb) ∧
    ∃ (t : State) (r : Word), exec (.orr rd ra rb) s = .next t ∧
      (∀ k, r.getLsbD k = ((s.getReg ra).getLsbD k || (s.getReg rb).getLsbD k)) ∧
      OnlyRegisterWritten s t rd r ∧
      t.flags = { c := false, v := false, n := decide (r.toInt < 0), z := decide (r.toNat = 0) } ∧
      MemoryUnchanged s t ∧ CommonEffect s t

/-- ADD (42_alu.md R102): the sum modulo 65536; C is the 17th bit of the sum, V says that the inputs have
the same sign and the result the opposite one, N and Z are of the 16-bit result. -/
def Obligations.AddWritesSumAndFlags : Prop :=
  ∀ (rd ra rb : Reg) (s : State),
    decode (BitVec.ofNat 16
        (0xA000 + rd.toBits.toNat * 256 + ra.toBits.toNat * 16 + rb.toBits.toNat)) =
      .instr (.add rd ra rb) ∧
    ∃ (t : State) (r : Word), exec (.add rd ra rb) s = .next t ∧
      r.toNat = ((s.getReg ra).toNat + (s.getReg rb).toNat) % 65536 ∧
      OnlyRegisterWritten s t rd r ∧
      t.flags =
        { c := decide (65536 ≤ (s.getReg ra).toNat + (s.getReg rb).toNat)
          v := decide (((s.getReg ra).toInt < 0 ↔ (s.getReg rb).toInt < 0) ∧
                 ¬(r.toInt < 0 ↔ (s.getReg ra).toInt < 0))
          n := decide (r.toInt < 0)
          z := decide (r.toNat = 0) } ∧
      MemoryUnchanged s t ∧ CommonEffect s t

/-- SUB (42_alu.md R103, 90_conflicts.md C2): the low 16 bits of `ra + ~rb + 1`, which is `ra - rb` modulo
65536; C is the carry of that sum, V says that the inputs have opposite signs and the result the sign of
`rb`, N and Z are of the 16-bit result. -/
def Obligations.SubWritesDifferenceAndFlags : Prop :=
  ∀ (rd ra rb : Reg) (s : State),
    decode (BitVec.ofNat 16
        (0xB000 + rd.toBits.toNat * 256 + ra.toBits.toNat * 16 + rb.toBits.toNat)) =
      .instr (.sub rd ra rb) ∧
    ∃ (t : State) (r : Word), exec (.sub rd ra rb) s = .next t ∧
      r.toNat = ((s.getReg ra).toNat + (65535 - (s.getReg rb).toNat) + 1) % 65536 ∧
      OnlyRegisterWritten s t rd r ∧
      t.flags =
        { c := decide (65536 ≤ (s.getReg ra).toNat + (65535 - (s.getReg rb).toNat) + 1)
          v := decide (¬((s.getReg ra).toInt < 0 ↔ (s.getReg rb).toInt < 0) ∧
                 (r.toInt < 0 ↔ (s.getReg rb).toInt < 0))
          n := decide (r.toInt < 0)
          z := decide (r.toNat = 0) } ∧
      MemoryUnchanged s t ∧ CommonEffect s t

/-- 42_alu.md R104: the flags come from the result of the operation, so they are the same for every
destination, and with `rz` as destination they are written although no register changes. -/
def Obligations.FlagsDoNotDependOnDestination : Prop :=
  ∀ (ra rb rd : Reg) (s : State),
    ∀ form ∈ [Instr.and, Instr.orr, Instr.add, Instr.sub], ∃ t u : State,
      exec (form rzIndex ra rb) s = .next t ∧ exec (form rd ra rb) s = .next u ∧
      t.flags = u.flags ∧ RegistersUnchanged s t ∧
      (rd ≠ rzIndex →
        t.flags.n = decide ((u.getReg rd).toInt < 0) ∧ t.flags.z = decide (u.getReg rd = 0))

/-- The spec's inference in 30_encoding.md section 6 on instructions that name `rz`: with `rz` as
destination MOVL, SETH and LDR change nothing but `pc`, and AND, ORR, ADD and SUB nothing but `pc` and the
flags, which they do write. -/
def Obligations.RzDestinationChangesNoRegister : Prop :=
  ∀ s : State,
    (∀ imm8, exec (.movl rzIndex imm8) s = .next { s with pc := s.pc + 1 }) ∧
    (∀ imm8, exec (.seth rzIndex imm8) s = .next { s with pc := s.pc + 1 }) ∧
    (∀ ra, exec (.ldr rzIndex ra) s = .next { s with pc := s.pc + 1 }) ∧
    (∀ ra rb, exec (.and rzIndex ra rb) s =
      .next { s with pc := s.pc + 1, flags := (andResult (s.getReg ra) (s.getReg rb)).flags }) ∧
    (∀ ra rb, exec (.orr rzIndex ra rb) s =
      .next { s with pc := s.pc + 1, flags := (orrResult (s.getReg ra) (s.getReg rb)).flags }) ∧
    (∀ ra rb, exec (.add rzIndex ra rb) s =
      .next { s with pc := s.pc + 1, flags := (addResult (s.getReg ra) (s.getReg rb)).flags }) ∧
    (∀ ra rb, exec (.sub rzIndex ra rb) s =
      .next { s with pc := s.pc + 1, flags := (subResult (s.getReg ra) (s.getReg rb)).flags })

/-! ## Arithmetic -/

/-- The identities the spec derives in 42_alu.md, "Integer arithmetic laws": C and V of ADD and SUB as
arithmetic on the exact results, the two phrasings of SUB's overflow, and which of the flags can be 1
together. -/
def Obligations.CarryAndOverflowAreExact : Prop :=
  ∀ a b : Word,
    (addResult a b).flags.c = decide (65536 ≤ a.toNat + b.toNat) ∧
    (addResult a b).flags.v = decide (¬(-32768 ≤ a.toInt + b.toInt ∧ a.toInt + b.toInt ≤ 32767)) ∧
    (subResult a b).flags.c = decide (b.toNat ≤ a.toNat) ∧
    (subResult a b).flags.v = decide (¬(-32768 ≤ a.toInt - b.toInt ∧ a.toInt - b.toInt ≤ 32767)) ∧
    (subResult a b).flags.v = addOverflow a (~~~b) (subResult a b).value ∧
    ((subResult a a).flags.z = true ∧ (subResult a a).flags.c = true) ∧
    ((addResult 0xFFFF 0x0001).flags.z = true ∧ (addResult 0xFFFF 0x0001).flags.c = true) ∧
    ¬((addResult a b).flags.n = true ∧ (addResult a b).flags.z = true) ∧
    ¬((subResult a b).flags.n = true ∧ (subResult a b).flags.z = true)

/-- The spec's inference in 42_alu.md, "Integer arithmetic laws": the result is the exact one modulo
65536; it is the exact signed one when V = 0, and the exact unsigned one when C = 0 (ADD) or C = 1 (SUB).
-/
def Obligations.ResultIsExactUnlessFlagged : Prop :=
  ∀ a b : Word,
    (addResult a b).value.toNat = (a.toNat + b.toNat) % 65536 ∧
    ((addResult a b).value.toInt = a.toInt + b.toInt ↔ (addResult a b).flags.v = false) ∧
    ((addResult a b).value.toNat = a.toNat + b.toNat ↔ (addResult a b).flags.c = false) ∧
    ((subResult a b).value.toNat : Int) = ((a.toNat : Int) - b.toNat) % 65536 ∧
    ((subResult a b).value.toInt = a.toInt - b.toInt ↔ (subResult a b).flags.v = false) ∧
    (((subResult a b).value.toNat : Int) = (a.toNat : Int) - b.toNat ↔ (subResult a b).flags.c = true)

/-- The idioms the spec derives in 42_alu.md, "Integer arithmetic laws": doubling is a left shift with the
bit shifted out in C, `(a | b) - (a & b)` is the exclusive or, `0 - b` is negation. -/
def Obligations.BuiltOperations : Prop :=
  ∀ a b : Word,
    (addResult a a).value = a <<< 1 ∧ (addResult a a).flags.c = a.getLsbD 15 ∧
    (subResult (orrResult a b).value (andResult a b).value).value = a ^^^ b ∧
    (subResult 0 b).value = -b

/-- The idiom the spec derives from MOVL and SETH in 40_immediate_moves.md: MOVL then SETH load any 16-bit
constant, with the flags unchanged; in the other order the low byte alone is left. -/
def Obligations.MovlThenSethLoadsConstant : Prop :=
  ∀ (k : Word) (rd : Reg) (s : State), rd ≠ rzIndex →
    (∃ t u : State, exec (.movl rd (k.toNat % 256)) s = .next t ∧
      exec (.seth rd (k.toNat / 256)) t = .next u ∧ u.getReg rd = k ∧ u.flags = s.flags) ∧
    (∃ t u : State, exec (.seth rd (k.toNat / 256)) s = .next t ∧
      exec (.movl rd (k.toNat % 256)) t = .next u ∧ (u.getReg rd).toNat = k.toNat % 256 ∧
      u.flags = s.flags)

/-! ## Registers, flags and the program counter, over all instructions -/

/-- 10_state.md R11: a read of `rz` gives 0 always, a write to it is lost, and an instruction that names it
as destination still writes the flags from the true result. -/
def Obligations.RzReadsZeroAndLosesWrites : Prop :=
  ∀ s : State, s.getReg rzIndex = 0 ∧ (∀ x, s.setReg rzIndex x = s) ∧
    (∀ (i : Instr) (t : State), exec i s = .next t → t.getReg rzIndex = 0) ∧
    ∀ p ∈ [(Instr.and, andResult), (Instr.orr, orrResult), (Instr.add, addResult),
        (Instr.sub, subResult)], ∀ ra rb, ∃ t, exec (p.1 rzIndex ra rb) s = .next t ∧
      t.flags = (p.2 (s.getReg ra) (s.getReg rb)).flags

/-- The range of the open parameter (92_eei_decisions.md D1, the spec's decision; log 5): `RZ_INDEX` is
one of 0, 4, 5, 6, 7. -/
def Obligations.RzIndexIsInRange : Prop := rzIndex ∈ [Reg.r0, Reg.r4, Reg.r5, Reg.r6, Reg.r7]

/-- The spec's inference from the eight descriptions (10_state.md section 1): an instruction writes no
general register but those it names as written, and what it does depends on no general register but those
it names as read. -/
def Obligations.OnlyNamedRegistersMatter : Prop :=
  ∀ (i : Instr) (s t : State), exec i s = .next t →
    (∀ r, r ∉ registersWritten i → t.getReg r = s.getReg r) ∧
    ∀ f : RegFile, (∀ r ∈ registersRead i, { s with regs := f }.getReg r = s.getReg r) →
      ∃ t', exec i { s with regs := f } = .next t' ∧
        (∀ r ∈ registersWritten i, t'.getReg r = t.getReg r) ∧
        t'.flags = t.flags ∧ t'.pc = t.pc ∧ t'.mem = t.mem ∧ t'.held = t.held

/-- 10_state.md section 2 and 43_control_and_system.md; the wrap is the spec's decision D5 (log 7): every
instruction runs and sets `pc` to `(pc + 1) mod 65536`, and none reads it: from
another `pc` the next state differs in `pc` alone. -/
def Obligations.PcCountsOnAndIsNotRead : Prop :=
  ∀ (i : Instr) (s : State), ∃ t, exec i s = .next t ∧ t.pc.toNat = (s.pc.toNat + 1) % 65536 ∧
    ∀ p : Word, exec i { s with pc := p } = .next { t with pc := p + 1 }

/-- 10_state.md section 3: AND, ORR, ADD and SUB write all four flags, so that nothing is left of the old
ones; MOVL, SETH, LDR and STR leave all four unchanged. -/
def Obligations.FlagsWrittenByFourInstructions : Prop :=
  ∀ (i : Instr) (s : State), ∃ t, exec i s = .next t ∧
    (writesFlags i = false → t.flags = s.flags) ∧
    (writesFlags i = true → ∀ f : Flags, exec i { s with flags := f } = .next t)

/-- Nothing the spec describes reads the flags (10_state.md section 3): a step from a state with other
flags goes on in the same way and differs in nothing but the flags. -/
def Obligations.FlagsNeverSteerAStep : Prop :=
  ∀ (s : State) (f : Flags),
    (∀ t, step s = .next t → ∃ g, step { s with flags := f } = .next { t with flags := g }) ∧
    (∀ r, step s = .refused r → step { s with flags := f } = .refused r)

/-! ## Memory -/

/-- 20_memory.md R36: `MemWrite` sets the addressed word, adds the value to the words that address has held,
and leaves every other word of memory and the rest of the state unchanged. -/
def Obligations.MemWriteChangesOneWord : Prop :=
  ∀ (s : State) (a v : Word),
    (s.memWrite a v).memRead a = v ∧
    (∀ b, b ≠ a → (s.memWrite a v).memRead b = s.memRead b) ∧
    (∀ b w, w ∈ (s.memWrite a v).heldAt b ↔ w ∈ s.heldAt b ∨ (b = a ∧ w = v)) ∧
    (∀ r, (s.memWrite a v).getReg r = s.getReg r) ∧ (s.memWrite a v).flags = s.flags ∧
    (s.memWrite a v).pc = s.pc ∧ (s.memWrite a v).refused = s.refused

/-- 20_memory.md R35: after any sequence of stores, a read returns the word the latest store to its address
wrote, or what was there before all of them. -/
def Obligations.MemReadReturnsLatestWrite : Prop :=
  ∀ (stores : List (Word × Word)) (s : State) (a : Word),
    (stores.foldl (fun u p => u.memWrite p.1 p.2) s).memRead a =
      (((stores.filter (fun p => decide (p.1 = a))).getLast?).map Prod.snd).getD (s.memRead a)

/-- The spec's inference in 20_memory.md section 5: a store of the word an address already holds changes
no word of memory and no address's held words; in a canonical memory that lists the word, no data at all
(logs 1, 2). -/
def Obligations.StoreOfSameWordChangesNothing : Prop :=
  ∀ (s : State) (a : Word), MemoryUnchanged s (s.memWrite a (s.memRead a)) ∧
    (Memory.wf s.mem = true → s.contentAt a ≠ none → s.memWrite a (s.memRead a) = s)

/-- The spec's decision D12 (log 18): a load sees the word of the latest earlier store to its address,
from the very next instruction on, whichever register holds the address. -/
def Obligations.LoadSeesEarlierStore : Prop :=
  ∀ (s : State) (rd ra rd' ra' : Reg), s.getReg ra' = s.getReg ra → rd' ≠ rzIndex →
    ∃ t u, exec (.str rd ra) s = .next t ∧ exec (.ldr rd' ra') t = .next u ∧
      u.getReg rd' = s.getReg rd

/-- Only STR changes memory, and STR changes no register (20_memory.md section 4, 41_load_store.md). -/
def Obligations.OnlyStrWritesMemory : Prop :=
  ∀ (s t : State), step s = .next t → ∃ i, decode s.fetch = .instr i ∧
    (writesMemory i = false → MemoryUnchanged s t) ∧ (writesMemory i = true → RegistersUnchanged s t)

/-! ## Fetch and the held words -/

/-- The spec's decision D11 (log 9): a fetch returns a word the address has held, for every choice; every
held word is returned for some choice; and where the current word is the only one held, it is the one
fetched. -/
def Obligations.FetchReturnsAnyHeldWord : Prop :=
  ∀ (s : State) (a : Word),
    (∀ n, s.fetchChoosing n a ∈ s.heldAt a) ∧
    (∀ v ∈ s.heldAt a, ∃ n, s.fetchChoosing n a = v) ∧
    ((∀ v ∈ s.heldAt a, v = s.memRead a) → ∀ n, s.fetchChoosing n a = s.memRead a)

/-- The bookkeeping of the spec's decision D11 (10_state.md section 7; log 9): `held[a]` has the current
word, loses no member in a step, and gains none but the current word. -/
def Obligations.HeldWordsOnlyGrow : Prop :=
  ∀ (s t : State) (a : Word), step s = .next t →
    t.memRead a ∈ t.heldAt a ∧ (∀ v ∈ s.heldAt a, v ∈ t.heldAt a) ∧
    (∀ v ∈ t.heldAt a, v ∈ s.heldAt a ∨ v = t.memRead a)

/-- The source's STR example under the spec's decision D11 (70_reset_and_hazards.md section 2; log 9):
after a store over the very next instruction, the next fetch has exactly two outcomes, the old word and
the new one, and both occur. -/
def Obligations.StoreOverNextInstructionLeavesTwoOutcomes : Prop :=
  ∀ (s : State) (rd ra : Reg), s.getReg ra = s.pc + 1 → FetchSettled s (s.pc + 1) →
    ∃ t, exec (.str rd ra) s = .next t ∧
      (∀ n, t.fetchChoosing n t.pc = s.memRead (s.pc + 1) ∨ t.fetchChoosing n t.pc = s.getReg rd) ∧
      (∃ n, t.fetchChoosing n t.pc = s.memRead (s.pc + 1)) ∧
      (∃ n, t.fetchChoosing n t.pc = s.getReg rd)

/-- The source's LDR example (41_load_store.md, 20_memory.md section 1): a LDR whose address is its own
loads its own machine code. -/
def Obligations.LdrOfOwnAddressLoadsOwnWord : Prop :=
  ∀ (s : State) (rd ra : Reg), s.refused = none → FetchSettled s s.pc →
    s.memRead s.pc = encode (.ldr rd ra) → s.getReg ra = s.pc → rd ≠ rzIndex →
    ∃ t, step s = .next t ∧ t.getReg rd = encode (.ldr rd ra)

/-! ## Decoding and encoding -/

/-- The spec's decisions D3 and D4 (30_encoding.md sections 5 and 6; log 11): which words are refused, and
with which reason, field by field. -/
def Obligations.RefusedWordsByReason : Prop :=
  ∀ w : Word,
    (decode w = .refused .unknownOpcode ↔
      w.toNat / 4096 ∈ [0b0001, 0b0011, 0b0101, 0b0110, 0b1100, 0b1101, 0b1110, 0b1111]) ∧
    (decode w = .refused .reservedBits ↔
      (w.toNat / 4096 ∈ [0b0100, 0b0111] ∧ (w.getLsbD 7 = true ∨ w.toNat % 16 ≠ 0)) ∨
      (w.toNat / 4096 ∈ [0b1000, 0b1001, 0b1010, 0b1011] ∧
        (w.getLsbD 7 = true ∨ w.getLsbD 3 = true))) ∧
    (decode w = .refused .cond1 ↔
      w.getLsbD 11 = true ∧ decode w ≠ .refused .unknownOpcode ∧ decode w ≠ .refused .reservedBits) ∧
    (w.getLsbD 11 = true → ∃ reason, decode w = .refused reason)

/-- Every well-formed instruction is what its word decodes to (30_encoding.md sections 6 and 7). -/
def Obligations.DecodeOfEncodeIsInstruction : Prop :=
  ∀ i : Instr, i.wellFormed = true → decode (encode i) = .instr i

/-- Every word that decodes is the word of the instruction it decodes to, which is well formed: each word
has one meaning and no bit is dropped (30_encoding.md sections 6 and 7). -/
def Obligations.EncodeOfDecodeIsWord : Prop :=
  ∀ (w : Word) (i : Instr), decode w = .instr i → i.wellFormed = true ∧ encode i = w

/-- The words the source works out and the spec's words for the other formats (95_test_vectors.md E1 to E3,
S1 to S10, section 2.1). -/
def Obligations.WordsOfTheSpecDecode : Prop :=
  decode 0x4210 = .instr (.ldr .r2 .r1) ∧ decode 0x0245 = .instr (.movl .r2 0x45) ∧
  decode 0x0385 = .instr (.movl .r3 0x85) ∧ decode 0x21AB = .instr (.seth .r1 0xAB) ∧
  decode 0x7210 = .instr (.str .r2 .r1) ∧ decode 0x8312 = .instr (.and .r3 .r1 .r2) ∧
  decode 0x9312 = .instr (.orr .r3 .r1 .r2) ∧ decode 0xA312 = .instr (.add .r3 .r1 .r2) ∧
  decode 0xB312 = .instr (.sub .r3 .r1 .r2) ∧ decode 0x5123 = .refused .unknownOpcode ∧
  decode 0x4290 = .refused .reservedBits ∧ decode 0x0A45 = .refused .cond1

/-! ## The assembler -/

/-- 30_encoding.md R67: where the destination is left out it is `ra`, in each of the four format R lines;
`add r1, r2` is the word 0xA112. -/
def Obligations.DestinationDefaultsToFirstSource : Prop :=
  ∀ (ra rb : RegName),
    assemble (.and none ra rb) = assemble (.and (some ra) ra rb) ∧
    assemble (.orr none ra rb) = assemble (.orr (some ra) ra rb) ∧
    assemble (.add none ra rb) = assemble (.add (some ra) ra rb) ∧
    assemble (.sub none ra rb) = assemble (.sub (some ra) ra rb) ∧
    (assemble (.add none (.numbered .r1) (.numbered .r2))).map encode = some 0xA112

/-- What the assembler accepts is well formed and decodes to itself, and an immediate above 255 is refused
(30_encoding.md section 7; the range of `seth` is the spec's decision D15, and that `rN` is no name of
`RZ_INDEX` is the model's choice, log 21). -/
def Obligations.AssembledLinesDecode : Prop :=
  (∀ (l : AsmLine) (i : Instr), assemble l = some i → decode (encode i) = .instr i) ∧
  (∀ (rd : RegName) (imm8 : Nat), 255 < imm8 →
    assemble (.movl rd imm8) = none ∧ assemble (.seth rd imm8) = none) ∧
  (∀ (rd : Reg) (imm8 : Nat), rd ≠ rzIndex → imm8 ≤ 255 →
    assemble (.movl (.numbered rd) imm8) = some (.movl rd imm8) ∧
    assemble (.movl .rz imm8) = some (.movl rzIndex imm8))

/-! ## The step, the refusal and the run -/

/-- The spec's decision D14 (60_exceptions.md section 5; log 18): a step of a machine whose mark is clear
fetches at `pc`, and when the fetched word decodes to an instruction the step is that instruction's
execution; the model's counter of fetches, which the choice of a later fetch uses, has counted this one
(log 10). -/
def Obligations.StepRunsDecodedInstruction : Prop :=
  ∀ (s : State) (i : Instr), s.refused = none → decode s.fetch = .instr i →
    s.fetch ∈ s.heldAt s.pc ∧ step s = exec i { s with fetches := s.fetches + 1 }

/-- A word placed at `pc` by the host is what the next step runs (70_reset_and_hazards.md section 1, the
spec's decision D9; the form is the model's choice, log 13). -/
def Obligations.PlacedWordIsRunNext : Prop :=
  ∀ (s : State) (nbits w : Nat) (i : Instr), decodeTableWord nbits w = some i →
    step (s.withFetchWord nbits w) = exec i (s.withFetchWord nbits w).countFetch ∧
    (s.withFetchWord nbits w).pc = s.pc ∧ (s.withFetchWord nbits w).regs = s.regs ∧
    (s.withFetchWord nbits w).flags = s.flags ∧
    ∀ a, a ≠ s.pc → (s.withFetchWord nbits w).memRead a = s.memRead a

/-- The spec's decision D4 on refusals (60_exceptions.md section 1; log 12): a word without a meaning is
refused with its reason and address; a run that meets it ends refused, with the mark set and nothing else
changed; the mark is never cleared. -/
def Obligations.MeaninglessWordIsRefused : Prop :=
  ∀ (s : State) (reason : RefuseReason), s.refused = none → decode s.fetch = .refused reason →
    step s = .refused (refusalAt s.pc reason) ∧
    ∀ (haltPc : Word) (n : Nat), s.pc ≠ haltPc →
      run haltPc (n + 1) s = .refused { s with refused := some (refusalAt s.pc reason) } ∧
      step { s with refused := some (refusalAt s.pc reason) } = .refused (refusalAt s.pc reason) ∧
      ∀ m, run haltPc m { s with refused := some (refusalAt s.pc reason) } =
        .refused { s with refused := some (refusalAt s.pc reason) }

/-- The spec's inference in 60_exceptions.md section 1: no instruction fails, and no step does anything
but go on or refuse a word; a step that goes on leaves the mark clear. -/
def Obligations.NothingFaults : Prop :=
  (∀ (i : Instr) (s : State), ∃ t, exec i s = .next t) ∧
  (∀ s : State, s.refused = none →
    (∃ t, step s = .next t ∧ t.refused = none) ∨
    (∃ reason, decode s.fetch = .refused reason ∧ step s = .refused (refusalAt s.pc reason)))

/-- The spec's decision D10 (70_reset_and_hazards.md section 1; log 14): at `HALT_PC` the run is over with
no fetch made, whatever the word there, and the state is the final state. -/
def Obligations.RunIsOverAtHaltPc : Prop :=
  ∀ (s : State) (n : Nat), s.refused = none → run s.pc n s = .over s

/-- The spec's inference in 43_control_and_system.md, under its decisions D5 and D10 (logs 7, 14): every
run that meets no refusal reaches `HALT_PC` within 65,536 steps; otherwise it ends refused, with a reason
the spec lists. -/
def Obligations.RunEndsWithin65536Steps : Prop :=
  ∀ (haltPc : Word) (s : State) (n : Nat), s.refused = none → 65536 ≤ n →
    (∃ t, run haltPc n s = .over t ∧ t.pc = haltPc ∧ t.refused = none) ∨
    (∃ t reason, run haltPc n s = .refused t ∧ t.refused = some (refusalAt t.pc reason))

/-- The spec's decisions D9 and D10 (70_reset_and_hazards.md section 1; logs 13, 14): the default `HALT_PC` is
the address after the last word of code, where the data of the image begin; a program runs to it, in no more
steps than its code has words, or is refused, and so never fetches its data. -/
def Obligations.DefaultHaltPcIsAfterCode : Prop :=
  ∀ (code data : List Word), code.length < 65536 → (imageWords code data).length ≤ 65536 →
    (defaultHaltPc code).toNat = code.length ∧
    (∀ a : Word, a.toNat < code.length →
      code[a.toNat]? = some ((State.boot (imageWords code data)).memRead a)) ∧
    (∀ a : Word, code.length ≤ a.toNat → a.toNat < code.length + data.length →
      data[a.toNat - code.length]? = some ((State.boot (imageWords code data)).memRead a)) ∧
    ∀ n, code.length ≤ n →
      (∃ t, runProgram code data n = .over t ∧ t.pc.toNat = code.length ∧ t.refused = none) ∨
      (∃ t reason, runProgram code data n = .refused t ∧ t.pc.toNat < code.length ∧
        t.refused = some (refusalAt t.pc reason))

/-! ## Reset and the invariant -/

/-- The spec's decisions D6, D9 and D13 (10_state.md section 9; logs 2, 3, 4, 7): after reset `pc` is 0
and the mark is clear, `rz` reads 0, and every address has held its reset word alone. The reset values of
registers, flags and memory are free. -/
def Obligations.ResetState : Prop :=
  State.reset.pc = 0 ∧ State.reset.refused = none ∧ State.reset.getReg rzIndex = 0 ∧
    ∀ a, State.reset.heldAt a = [State.reset.memRead a]

/-- The spec's decision D9 (10_state.md section 9; logs 2, 13): after the host's load every address below
the image's length holds the image's word, every other address its reset word, and every address has held
that word alone. -/
def Obligations.BootHoldsImage : Prop :=
  ∀ image : List Word, image.length ≤ 65536 →
    (∀ a : Word, (State.boot image).memRead a = (image[a.toNat]?).getD (State.reset.memRead a)) ∧
    (∀ a : Word, (State.boot image).heldAt a = [(State.boot image).memRead a]) ∧
    (State.boot image).pc = 0 ∧ (State.boot image).refused = none ∧
    (State.boot image).regs = State.reset.regs ∧ (State.boot image).flags = State.reset.flags

/-- The state after reset, and after the load of any image, meets the invariant, the model's canonical forms
(logs 1, 6, 9). -/
def Obligations.BootMeetsInvariant : Prop :=
  State.reset.Inv ∧ ∀ image : List Word, (State.boot image).Inv

/-- Every step keeps the invariant, the model's canonical forms: memory and the held words stay in
canonical form, and the cell behind `rz` stays 0 (20_memory.md section 2, 10_state.md sections 1 and 7;
logs 1, 6, 9). -/
def Obligations.StepKeepsInvariant : Prop :=
  ∀ s t : State, s.Inv → step s = .next t → t.Inv
end

