-- ==== Sys2Proof/Laws/Cells.lean ====
section
/-! SUPPORT. What the sparse lists answer after an update, and that every update keeps their canonical form. -/

namespace Sys2Proof.Machine

variable {α : Type}

theorem lookupCell_insertCell_same (m : List (Nat × α)) (k : Nat) (x : α) :
    lookupCell (insertCell m k x) k = some x := by
  induction m with
  | nil => simp [insertCell, lookupCell]
  | cons c rest ih =>
    obtain ⟨j, y⟩ := c
    simp only [insertCell]
    split
    · simp [lookupCell]
    · split
      · simp [lookupCell]
      · rename_i hne
        simp [lookupCell, Ne.symm hne, ih]

theorem lookupCell_insertCell_other (m : List (Nat × α)) {k j : Nat} (x : α) (h : j ≠ k) :
    lookupCell (insertCell m k x) j = lookupCell m j := by
  induction m with
  | nil => simp [insertCell, lookupCell, h.symm]
  | cons c rest ih =>
    obtain ⟨i, y⟩ := c
    simp only [insertCell]
    split
    · simp [lookupCell, h.symm]
    · split
      · rename_i heq
        subst heq
        simp [lookupCell, h.symm]
      · simp [lookupCell, ih]

/-- Reading a key after an insertion. -/
theorem lookupCell_insertCell (m : List (Nat × α)) (k j : Nat) (x : α) :
    lookupCell (insertCell m k x) j = if j = k then some x else lookupCell m j := by
  split
  · rename_i h
    rw [h, lookupCell_insertCell_same]
  · rename_i h
    exact lookupCell_insertCell_other m x h

/-- Reading a key after a removal. -/
theorem lookupCell_removeCell (m : List (Nat × α)) (k j : Nat) :
    lookupCell (removeCell m k) j = if j = k then none else lookupCell m j := by
  induction m with
  | nil => simp [removeCell, lookupCell]
  | cons c rest ih =>
    obtain ⟨i, y⟩ := c
    simp only [removeCell]
    split
    · rename_i h
      subst h
      rw [ih]
      split
      · rfl
      · rename_i hj
        simp [lookupCell, Ne.symm hj]
    · rename_i h
      simp only [lookupCell, ih]
      split
      · rename_i hij
        simp [← hij, h]
      · rfl

theorem insertCell_all (p : Nat × α → Bool) (m : List (Nat × α)) (k : Nat) (x : α)
    (hm : m.all p = true) (hx : p (k, x) = true) : (insertCell m k x).all p = true := by
  induction m with
  | nil => simpa [insertCell] using hx
  | cons c rest ih =>
    obtain ⟨i, y⟩ := c
    simp only [List.all_cons, Bool.and_eq_true] at hm
    simp only [insertCell]
    split
    · simp only [List.all_cons, Bool.and_eq_true]
      exact ⟨hx, hm.1, hm.2⟩
    · split
      · simp only [List.all_cons, Bool.and_eq_true]
        exact ⟨hx, hm.2⟩
      · simp only [List.all_cons, Bool.and_eq_true]
        exact ⟨hm.1, ih hm.2⟩

theorem removeCell_all (p : Nat × α → Bool) (m : List (Nat × α)) (k : Nat)
    (hm : m.all p = true) : (removeCell m k).all p = true := by
  induction m with
  | nil => simp [removeCell]
  | cons c rest ih =>
    obtain ⟨i, y⟩ := c
    simp only [List.all_cons, Bool.and_eq_true] at hm
    simp only [removeCell]
    split
    · exact ih hm.2
    · simp only [List.all_cons, Bool.and_eq_true]
      exact ⟨hm.1, ih hm.2⟩

/-- An insertion at an address keeps the canonical form. -/
theorem risingCells_insertCell (m : List (Nat × α)) (k : Nat) (x : α) (hk : k < 65536)
    (hm : risingCells m = true) : risingCells (insertCell m k x) = true := by
  induction m with
  | nil => simpa [insertCell, risingCells] using hk
  | cons c rest ih =>
    obtain ⟨i, y⟩ := c
    simp only [risingCells, Bool.and_eq_true, decide_eq_true_eq] at hm
    obtain ⟨⟨hi, hall⟩, hrest⟩ := hm
    simp only [insertCell]
    split
    · rename_i hlt
      have hall' : rest.all (fun c => decide (k < c.1)) = true := by
        simp only [List.all_eq_true, decide_eq_true_eq] at hall ⊢
        exact fun c hc => lt_trans hlt (hall c hc)
      simp [risingCells, hk, hlt, hi, hrest, hall, hall']
    · split
      · rename_i heq
        subst heq
        simp [risingCells, hk, hall, hrest]
      · have hik : decide (i < k) = true := by
          simp only [decide_eq_true_eq]
          omega
        simp only [risingCells, Bool.and_eq_true, decide_eq_true_eq]
        exact ⟨⟨hi, insertCell_all (fun c => decide (i < c.1)) rest k x hall hik⟩, ih hrest⟩

/-- A removal keeps the canonical form. -/
theorem risingCells_removeCell (m : List (Nat × α)) (k : Nat) (hm : risingCells m = true) :
    risingCells (removeCell m k) = true := by
  induction m with
  | nil => simp [removeCell, risingCells]
  | cons c rest ih =>
    obtain ⟨i, y⟩ := c
    simp only [risingCells, Bool.and_eq_true, decide_eq_true_eq] at hm
    simp only [removeCell]
    split
    · exact ih hm.2
    · simp only [risingCells, Bool.and_eq_true, decide_eq_true_eq]
      exact ⟨⟨hm.1.1, removeCell_all _ rest k hm.1.2⟩, ih hm.2⟩

/-- A listed cell is what its key looks up, when the keys rise. -/
theorem lookupCell_of_mem (m : List (Nat × α)) (hm : risingCells m = true) {e : Nat × α}
    (he : e ∈ m) : lookupCell m e.1 = some e.2 := by
  induction m with
  | nil => simp at he
  | cons c rest ih =>
    obtain ⟨i, y⟩ := c
    simp only [risingCells, Bool.and_eq_true, decide_eq_true_eq] at hm
    rcases List.mem_cons.mp he with rfl | he
    · simp [lookupCell]
    · have hlt := List.all_eq_true.mp hm.1.2 e he
      simp only [decide_eq_true_eq] at hlt
      simp [lookupCell, Nat.ne_of_lt hlt, ih hm.2 he]

/-- What a key looks up is a listed cell. -/
theorem mem_of_lookupCell (m : List (Nat × α)) {k : Nat} {x : α} (h : lookupCell m k = some x) :
    (k, x) ∈ m := by
  induction m with
  | nil => simp [lookupCell] at h
  | cons c rest ih =>
    obtain ⟨i, y⟩ := c
    simp only [lookupCell] at h
    split at h
    · rename_i hik
      simp only [Option.some.injEq] at h
      simp [hik, h]
    · exact List.mem_cons_of_mem _ (ih h)

/-- The cells after an insertion into a canonical list: the new one, and the old ones at other keys. -/
theorem mem_insertCell (m : List (Nat × α)) {k : Nat} (x : α) (hk : k < 65536)
    (hm : risingCells m = true) {e : Nat × α} (h : e ∈ insertCell m k x) :
    e = (k, x) ∨ (e ∈ m ∧ e.1 ≠ k) := by
  have hl := lookupCell_of_mem _ (risingCells_insertCell m k x hk hm) h
  rw [lookupCell_insertCell] at hl
  split at hl
  · rename_i hek
    simp only [Option.some.injEq] at hl
    exact .inl (Prod.ext hek hl.symm)
  · rename_i hek
    exact .inr ⟨mem_of_lookupCell m hl, hek⟩

/-- The cells after a removal are old ones at other keys. -/
theorem mem_removeCell (m : List (Nat × α)) (k : Nat) {e : Nat × α} (h : e ∈ removeCell m k) :
    e ∈ m ∧ e.1 ≠ k := by
  induction m with
  | nil => simp [removeCell] at h
  | cons c rest ih =>
    obtain ⟨i, y⟩ := c
    simp only [removeCell] at h
    split at h
    · exact ⟨List.mem_cons_of_mem _ (ih h).1, (ih h).2⟩
    · rename_i hik
      rcases List.mem_cons.mp h with rfl | h
      · exact ⟨List.mem_cons_self, hik⟩
      · exact ⟨List.mem_cons_of_mem _ (ih h).1, (ih h).2⟩

/-! Sets of contents. -/

theorem contentRank_injective {c d : Content} (h : contentRank c = contentRank d) : c = d := by
  cases c <;> cases d <;> simp_all [contentRank, BitVec.toNat_inj]

/-- The members of a set with one more. -/
theorem mem_addContent (cs : List Content) (c d : Content) :
    d ∈ addContent cs c ↔ d = c ∨ d ∈ cs := by
  induction cs with
  | nil => simp [addContent]
  | cons e rest ih =>
    simp only [addContent]
    split
    · simp
    · split
      · rename_i h
        subst h
        simp
      · simp only [List.mem_cons, ih]
        tauto

/-- The members of a set without one. -/
theorem mem_dropContent (cs : List Content) (c d : Content) :
    d ∈ dropContent cs c ↔ d ∈ cs ∧ d ≠ c := by
  induction cs with
  | nil => simp [dropContent]
  | cons e rest ih =>
    simp only [dropContent]
    split
    · rename_i h
      subst h
      simp only [ih, List.mem_cons]
      tauto
    · rename_i h
      simp only [List.mem_cons, ih]
      constructor
      · rintro (rfl | ⟨hd, hne⟩)
        · exact ⟨.inl rfl, h⟩
        · exact ⟨.inr hd, hne⟩
      · rintro ⟨rfl | hd, hne⟩
        · exact .inl rfl
        · exact .inr ⟨hd, hne⟩

/-- Adding a member keeps the canonical form. -/
theorem risingContents_addContent (cs : List Content) (c : Content) (h : risingContents cs = true) :
    risingContents (addContent cs c) = true := by
  induction cs with
  | nil => simp [addContent, risingContents]
  | cons d rest ih =>
    simp only [risingContents, Bool.and_eq_true, List.all_eq_true, decide_eq_true_eq] at h
    simp only [addContent]
    split
    · rename_i hlt
      simp only [risingContents, Bool.and_eq_true, List.all_eq_true, decide_eq_true_eq, List.mem_cons]
      refine ⟨?_, h⟩
      rintro e (rfl | he)
      · exact hlt
      · exact lt_trans hlt (h.1 e he)
    · split
      · simp only [risingContents, Bool.and_eq_true, List.all_eq_true, decide_eq_true_eq]
        exact h
      · rename_i hnlt hne
        have hne' : contentRank c ≠ contentRank d := fun hr => hne (contentRank_injective hr)
        simp only [risingContents, Bool.and_eq_true, List.all_eq_true, decide_eq_true_eq]
        refine ⟨fun e he => ?_, ih h.2⟩
        rcases (mem_addContent rest c e).mp he with rfl | he
        · omega
        · exact h.1 e he

/-- Dropping a member keeps the canonical form. -/
theorem risingContents_dropContent (cs : List Content) (c : Content) (h : risingContents cs = true) :
    risingContents (dropContent cs c) = true := by
  induction cs with
  | nil => simp [dropContent, risingContents]
  | cons d rest ih =>
    simp only [risingContents, Bool.and_eq_true, List.all_eq_true, decide_eq_true_eq] at h
    simp only [dropContent]
    split
    · exact ih h.2
    · simp only [risingContents, Bool.and_eq_true, List.all_eq_true, decide_eq_true_eq]
      exact ⟨fun e he => h.1 e ((mem_dropContent rest c e).mp he).1, ih h.2⟩

end Sys2Proof.Machine
end

