-- ==== Sys2Proof/Laws/Decode.lean ====
section
/-! SUPPORT. The decoder's parts: register fields, and that no two rows of the opcode map overlap. -/

namespace Sys2Proof

theorem Reg.ofBits_toBits (r : Reg) : Reg.ofBits r.toBits = r := by
  cases r <;> rfl

theorem Reg.toBits_ofBits (b : BitVec 3) : (Reg.ofBits b).toBits = b := by
  revert b
  decide

/-- Two rows of the opcode map have different opcodes. -/
theorem opcodeTable_opcodes_differ :
    opcodeTable.Pairwise fun p q => opField p.pattern ≠ opField q.pattern := by
  decide

/-- Every row's mask covers the opcode, and its pattern sets no bit outside the mask or at `cond`
(30_encoding.md R57). -/
theorem opcodeTable_masks :
    ∀ row ∈ opcodeTable, row.mask &&& 0xF000 = 0xF000 ∧ row.pattern &&& row.mask = row.pattern ∧
      condField row.pattern = false ∧ condField row.mask = false := by
  decide

end Sys2Proof
end

