-- ==== Sys2Proof/Laws/State.lean ====
section
/-! SUPPORT. One lemma for each field of State and each update of it, true by unfolding. -/

namespace Sys2Proof.Machine

/-! `State.setReg`, field by field. -/

@[simp] theorem setReg_flags (s : State) (r : Reg) (x : Word) : (s.setReg r x).flags = s.flags := rfl
@[simp] theorem setReg_pc (s : State) (r : Reg) (x : Word) : (s.setReg r x).pc = s.pc := rfl
@[simp] theorem setReg_mem (s : State) (r : Reg) (x : Word) : (s.setReg r x).mem = s.mem := rfl
@[simp] theorem setReg_held (s : State) (r : Reg) (x : Word) : (s.setReg r x).held = s.held := rfl
@[simp] theorem setReg_refused (s : State) (r : Reg) (x : Word) : (s.setReg r x).refused = s.refused := rfl
@[simp] theorem setReg_fetches (s : State) (r : Reg) (x : Word) : (s.setReg r x).fetches = s.fetches := rfl

/-! `State.setFlags`, field by field. -/

@[simp] theorem setFlags_regs (s : State) (f : Flags) : (s.setFlags f).regs = s.regs := rfl
@[simp] theorem setFlags_flags (s : State) (f : Flags) : (s.setFlags f).flags = f := rfl
@[simp] theorem setFlags_pc (s : State) (f : Flags) : (s.setFlags f).pc = s.pc := rfl
@[simp] theorem setFlags_mem (s : State) (f : Flags) : (s.setFlags f).mem = s.mem := rfl
@[simp] theorem setFlags_held (s : State) (f : Flags) : (s.setFlags f).held = s.held := rfl
@[simp] theorem setFlags_refused (s : State) (f : Flags) : (s.setFlags f).refused = s.refused := rfl
@[simp] theorem setFlags_fetches (s : State) (f : Flags) : (s.setFlags f).fetches = s.fetches := rfl

/-! `State.advancePc`, field by field. -/

@[simp] theorem advancePc_regs (s : State) : s.advancePc.regs = s.regs := rfl
@[simp] theorem advancePc_flags (s : State) : s.advancePc.flags = s.flags := rfl
@[simp] theorem advancePc_pc (s : State) : s.advancePc.pc = s.pc + 1 := rfl
@[simp] theorem advancePc_mem (s : State) : s.advancePc.mem = s.mem := rfl
@[simp] theorem advancePc_held (s : State) : s.advancePc.held = s.held := rfl
@[simp] theorem advancePc_refused (s : State) : s.advancePc.refused = s.refused := rfl
@[simp] theorem advancePc_fetches (s : State) : s.advancePc.fetches = s.fetches := rfl

/-! `State.countFetch`, field by field. -/

@[simp] theorem countFetch_regs (s : State) : s.countFetch.regs = s.regs := rfl
@[simp] theorem countFetch_flags (s : State) : s.countFetch.flags = s.flags := rfl
@[simp] theorem countFetch_pc (s : State) : s.countFetch.pc = s.pc := rfl
@[simp] theorem countFetch_mem (s : State) : s.countFetch.mem = s.mem := rfl
@[simp] theorem countFetch_held (s : State) : s.countFetch.held = s.held := rfl
@[simp] theorem countFetch_refused (s : State) : s.countFetch.refused = s.refused := rfl
@[simp] theorem countFetch_fetches (s : State) : s.countFetch.fetches = s.fetches + 1 := rfl

/-! `State.refuse`, field by field. -/

@[simp] theorem refuse_regs (s : State) (r : Refusal) : (s.refuse r).regs = s.regs := rfl
@[simp] theorem refuse_flags (s : State) (r : Refusal) : (s.refuse r).flags = s.flags := rfl
@[simp] theorem refuse_pc (s : State) (r : Refusal) : (s.refuse r).pc = s.pc := rfl
@[simp] theorem refuse_mem (s : State) (r : Refusal) : (s.refuse r).mem = s.mem := rfl
@[simp] theorem refuse_held (s : State) (r : Refusal) : (s.refuse r).held = s.held := rfl
@[simp] theorem refuse_refused (s : State) (r : Refusal) : (s.refuse r).refused = some r := rfl
@[simp] theorem refuse_fetches (s : State) (r : Refusal) : (s.refuse r).fetches = s.fetches := rfl

/-! `State.memWrite`, field by field. -/

@[simp] theorem memWrite_regs (s : State) (a v : Word) : (s.memWrite a v).regs = s.regs := rfl
@[simp] theorem memWrite_flags (s : State) (a v : Word) : (s.memWrite a v).flags = s.flags := rfl
@[simp] theorem memWrite_pc (s : State) (a v : Word) : (s.memWrite a v).pc = s.pc := rfl
@[simp] theorem memWrite_mem (s : State) (a v : Word) : (s.memWrite a v).mem = insertCell s.mem a.toNat v := rfl
@[simp] theorem memWrite_refused (s : State) (a v : Word) : (s.memWrite a v).refused = s.refused := rfl
@[simp] theorem memWrite_fetches (s : State) (a v : Word) : (s.memWrite a v).fetches = s.fetches := rfl

/-! `State.place`, field by field. -/

@[simp] theorem place_regs (s : State) (a w : Word) : (s.place a w).regs = s.regs := rfl
@[simp] theorem place_flags (s : State) (a w : Word) : (s.place a w).flags = s.flags := rfl
@[simp] theorem place_pc (s : State) (a w : Word) : (s.place a w).pc = s.pc := rfl
@[simp] theorem place_mem (s : State) (a w : Word) : (s.place a w).mem = insertCell s.mem a.toNat w := rfl
@[simp] theorem place_held (s : State) (a w : Word) : (s.place a w).held = removeCell s.held a.toNat := rfl
@[simp] theorem place_refused (s : State) (a w : Word) : (s.place a w).refused = s.refused := rfl
@[simp] theorem place_fetches (s : State) (a w : Word) : (s.place a w).fetches = s.fetches := rfl

/-! Reading a register after an update that does not touch the registers. -/

@[simp] theorem getReg_setFlags (s : State) (f : Flags) (q : Reg) : (s.setFlags f).getReg q = s.getReg q := rfl
@[simp] theorem getReg_advancePc (s : State) (q : Reg) : s.advancePc.getReg q = s.getReg q := rfl
@[simp] theorem getReg_countFetch (s : State) (q : Reg) : s.countFetch.getReg q = s.getReg q := rfl
@[simp] theorem getReg_refuse (s : State) (r : Refusal) (q : Reg) : (s.refuse r).getReg q = s.getReg q := rfl
@[simp] theorem getReg_memWrite (s : State) (a v : Word) (q : Reg) : (s.memWrite a v).getReg q = s.getReg q := rfl
@[simp] theorem getReg_place (s : State) (a w : Word) (q : Reg) : (s.place a w).getReg q = s.getReg q := rfl

/-! Reading memory after an update that does not touch memory. -/

@[simp] theorem memRead_setReg (s : State) (r : Reg) (x a : Word) : (s.setReg r x).memRead a = s.memRead a := rfl
@[simp] theorem memRead_setFlags (s : State) (f : Flags) (a : Word) : (s.setFlags f).memRead a = s.memRead a := rfl
@[simp] theorem memRead_advancePc (s : State) (a : Word) : s.advancePc.memRead a = s.memRead a := rfl
@[simp] theorem memRead_countFetch (s : State) (a : Word) : s.countFetch.memRead a = s.memRead a := rfl
@[simp] theorem memRead_refuse (s : State) (r : Refusal) (a : Word) : (s.refuse r).memRead a = s.memRead a := rfl

/-! The words an address has held, after an update that does not touch memory. -/

@[simp] theorem heldAt_setReg (s : State) (r : Reg) (x a : Word) : (s.setReg r x).heldAt a = s.heldAt a := rfl
@[simp] theorem heldAt_setFlags (s : State) (f : Flags) (a : Word) : (s.setFlags f).heldAt a = s.heldAt a := rfl
@[simp] theorem heldAt_advancePc (s : State) (a : Word) : s.advancePc.heldAt a = s.heldAt a := rfl
@[simp] theorem heldAt_countFetch (s : State) (a : Word) : s.countFetch.heldAt a = s.heldAt a := rfl
@[simp] theorem heldAt_refuse (s : State) (r : Refusal) (a : Word) : (s.refuse r).heldAt a = s.heldAt a := rfl

end Sys2Proof.Machine
end

