-- ==== Sys2Proof/Laws/Ops.lean ====
section
/-! SUPPORT. For each shared operation, once, everything it can do: registers, memory, the held words, the
fetch, and that the operations keep the invariant. -/

namespace Sys2Proof.Machine

/-! Registers (10_state.md R11, R12). -/

theorem rzIndex_range : rzIndex ≠ .r1 ∧ rzIndex ≠ .r2 ∧ rzIndex ≠ .r3 := by
  unfold rzIndex
  cases Config.rzChoice <;> decide

theorem isRz_eq_decide (r : Reg) : isRz r = decide (r = rzIndex) := by
  obtain ⟨h1, h2, h3⟩ := rzIndex_range
  cases r <;> simp [isRz, h1.symm, h2.symm, h3.symm]

theorem isRz_iff (r : Reg) : isRz r = true ↔ r = rzIndex := by
  simp [isRz_eq_decide]

theorem RegFile.cell_setCell (f : RegFile) (r q : Reg) (x : Word) :
    (f.setCell r x).cell q = if q = r then x else f.cell q := by
  cases r <;> cases q <;> rfl

theorem RegFile.setCell_cell (f : RegFile) (r : Reg) : f.setCell r (f.cell r) = f := by
  cases r <;> rfl

/-- Reading `rz`. -/
theorem getReg_rz (s : State) : s.getReg rzIndex = 0 := by
  simp [State.getReg, (isRz_iff rzIndex).mpr rfl]

/-- Reading a register after a register write. -/
theorem getReg_setReg (s : State) (r q : Reg) (x : Word) :
    (s.setReg r x).getReg q = if q = r ∧ q ≠ rzIndex then x else s.getReg q := by
  unfold State.getReg State.setReg
  simp only [RegFile.cell_setCell, isRz_eq_decide, decide_eq_true_eq]
  by_cases hq : q = rzIndex
  · simp [hq]
  · by_cases hr : q = r
    · subst hr
      simp [hq]
    · simp [hq, hr]

/-- A write to `rz` is lost whole. -/
theorem setReg_rz (s : State) (x : Word) : s.setReg rzIndex x = s := by
  simp [State.setReg, (isRz_iff rzIndex).mpr rfl, RegFile.setCell_cell]

/-! Memory and the held words (20_memory.md R35, R36; 10_state.md R24). -/

theorem contentAt_memWrite (s : State) (a b v : Word) :
    (s.memWrite a v).contentAt b = if b = a then some v else s.contentAt b := by
  simp only [State.contentAt, memWrite_mem, lookupCell_insertCell, BitVec.toNat_inj]

/-- Reading memory after a store. -/
theorem memRead_memWrite (s : State) (a b v : Word) :
    (s.memWrite a v).memRead b = if b = a then v else s.memRead b := by
  simp only [State.memRead, contentAt_memWrite]
  split <;> rfl

/-- The former contents after a store. -/
theorem formerAt_memWrite (s : State) (a b v : Word) :
    (s.memWrite a v).formerAt b =
      if b = a ∧ s.contentAt a ≠ some v then formerAfterStore (s.formerAt a) (s.contentAt a) v
      else s.formerAt b := by
  by_cases hc : s.contentAt a = some v
  · simp [State.formerAt, State.memWrite, hc]
  · by_cases hb : b = a
    · subst hb
      simp [State.formerAt, State.memWrite, hc, lookupCell_insertCell]
    · simp [State.formerAt, State.memWrite, hc, lookupCell_insertCell, BitVec.toNat_inj, hb]

theorem mem_heldAt (s : State) (a v : Word) :
    v ∈ s.heldAt a ↔ v = s.memRead a ∨ ∃ c ∈ s.formerAt a, contentValue a c = v := by
  simp [State.heldAt]

/-- The words an address has held after a store: those before, and the stored word at its address. -/
theorem mem_heldAt_memWrite (s : State) (a b v w : Word) :
    w ∈ (s.memWrite a v).heldAt b ↔ w ∈ s.heldAt b ∨ (b = a ∧ w = v) := by
  simp only [mem_heldAt, memRead_memWrite, formerAt_memWrite]
  by_cases hb : b = a
  · subst hb
    by_cases hc : s.contentAt b = some v
    · have hv : s.memRead b = v := by simp [State.memRead, hc, contentValue]
      simp only [hc, hv, ne_eq, not_true_eq_false, and_false, if_false, if_true, true_and]
      exact ⟨.inl, fun h => h.elim id .inl⟩
    · simp only [hc, ne_eq, not_false_eq_true, and_self, if_true, true_and, formerAfterStore,
        mem_addContent, mem_dropContent]
      have hread : contentValue b (s.contentAt b) = s.memRead b := rfl
      constructor
      · rintro (rfl | ⟨c, rfl | ⟨hc, -⟩, rfl⟩)
        · exact .inr rfl
        · exact .inl (.inl rfl)
        · exact .inl (.inr ⟨c, hc, rfl⟩)
      · rintro ((rfl | ⟨c, hc, rfl⟩) | rfl)
        · exact .inr ⟨s.contentAt b, .inl rfl, rfl⟩
        · by_cases hcv : c = some v
          · subst hcv
            exact .inl rfl
          · exact .inr ⟨c, .inr ⟨hc, hcv⟩, rfl⟩
        · exact .inl rfl
  · simp [hb]

/-- Reading memory after the host placed a word. -/
theorem memRead_place (s : State) (a b w : Word) :
    (s.place a w).memRead b = if b = a then w else s.memRead b := by
  simp only [State.memRead, State.contentAt, place_mem, lookupCell_insertCell, BitVec.toNat_inj]
  split <;> rfl

/-- The former contents after the host placed a word: none at its address. -/
theorem formerAt_place (s : State) (a b w : Word) :
    (s.place a w).formerAt b = if b = a then [] else s.formerAt b := by
  simp only [State.formerAt, place_held, lookupCell_removeCell, BitVec.toNat_inj]
  split <;> rfl

/-! The fetch (20_memory.md R43). -/

/-- A fetch returns a word the address has held. -/
theorem fetchChoosing_mem_heldAt (s : State) (n : Nat) (a : Word) :
    s.fetchChoosing n a ∈ s.heldAt a := by
  unfold State.fetchChoosing
  split
  · simp [State.heldAt]
  · have hlen : n % (s.heldAt a).length < (s.heldAt a).length :=
      Nat.mod_lt _ (by simp [State.heldAt])
    rw [List.getD_eq_getElem _ _ hlen]
    exact List.getElem_mem hlen

/-- Where the contents never changed, a fetch reads the current word. -/
theorem fetchChoosing_settled (s : State) (n : Nat) {a : Word} (h : FetchSettled s a) :
    s.fetchChoosing n a = s.memRead a := by
  unfold FetchSettled at h
  simp [State.fetchChoosing, h]

/-! The invariant. -/

theorem inv_of_same {s t : State} (h : s.Inv) (hr : t.regs.cell rzIndex = s.regs.cell rzIndex)
    (hm : t.mem = s.mem) (hh : t.held = s.held) : t.Inv :=
  ⟨hm ▸ h.mem_wf, by rw [hm, hh]; exact h.held_wf, hr.trans h.rz_cell⟩

/-- A register write keeps the invariant. -/
theorem inv_setReg {s : State} (h : s.Inv) (r : Reg) (x : Word) : (s.setReg r x).Inv := by
  refine inv_of_same h ?_ rfl rfl
  simp only [State.setReg, RegFile.cell_setCell, isRz_eq_decide, decide_eq_true_eq]
  split
  · rename_i hr
    simp [← hr]
  · rfl

theorem inv_setFlags {s : State} (h : s.Inv) (f : Flags) : (s.setFlags f).Inv :=
  inv_of_same h rfl rfl rfl

theorem inv_advancePc {s : State} (h : s.Inv) : s.advancePc.Inv := inv_of_same h rfl rfl rfl

theorem inv_countFetch {s : State} (h : s.Inv) : s.countFetch.Inv := inv_of_same h rfl rfl rfl

theorem inv_refuse {s : State} (h : s.Inv) (r : Refusal) : (s.refuse r).Inv := inv_of_same h rfl rfl rfl

/-- A store keeps memory in canonical form. -/
theorem memWrite_keeps_wf {s : State} (h : Memory.wf s.mem = true) (a v : Word) :
    Memory.wf (s.memWrite a v).mem = true :=
  risingCells_insertCell s.mem a.toNat v a.isLt h

/-- Placing a word keeps memory in canonical form. -/
theorem place_keeps_wf {s : State} (h : Memory.wf s.mem = true) (a w : Word) :
    Memory.wf (s.place a w).mem = true :=
  risingCells_insertCell s.mem a.toNat w a.isLt h

/-- Memory after reset is in canonical form. -/
theorem reset_mem_wf : Memory.wf State.reset.mem = true := rfl

/-- An entry stays right when the word at another address changes. -/
theorem heldEntryOk_insertCell_other {m : Memory} {e : Nat × List Content} {k : Nat} (x : Word)
    (hk : e.1 ≠ k) (h : heldEntryOk m e = true) : heldEntryOk (insertCell m k x) e = true := by
  simpa [heldEntryOk, lookupCell_insertCell, hk] using h

/-- The entry a changing store makes is right. -/
theorem heldEntryOk_store {m : Memory} {k : Nat} {former : List Content} {v : Word}
    (hf : risingContents former = true) (hne : lookupCell m k ≠ some v) :
    heldEntryOk (insertCell m k v) (k, formerAfterStore former (lookupCell m k) v) = true := by
  have hin : lookupCell m k ∈ formerAfterStore former (lookupCell m k) v := by
    simp [formerAfterStore, mem_addContent]
  have hout : some v ∉ formerAfterStore former (lookupCell m k) v := by
    simp [formerAfterStore, mem_addContent, mem_dropContent, Ne.symm hne]
  have hrise := risingContents_addContent _ (lookupCell m k) (risingContents_dropContent former (some v) hf)
  simp only [heldEntryOk, lookupCell_insertCell_same, Bool.and_eq_true, Bool.not_eq_true']
  refine ⟨⟨⟨?_, hrise⟩, rfl⟩, by simpa using hout⟩
  cases hc : formerAfterStore former (lookupCell m k) v with
  | nil => simp [hc] at hin
  | cons _ _ => rfl

theorem formerAt_rising {s : State} (h : s.Inv) (a : Word) : risingContents (s.formerAt a) = true := by
  have hw := h.held_wf
  simp only [Held.wf, Bool.and_eq_true, List.all_eq_true] at hw
  unfold State.formerAt
  cases hl : lookupCell s.held a.toNat with
  | none => rfl
  | some cs =>
    have := hw.2 _ (mem_of_lookupCell _ hl)
    simp only [heldEntryOk, Bool.and_eq_true] at this
    exact this.1.1.2


/-- A store keeps the invariant. -/
theorem inv_memWrite {s : State} (h : s.Inv) (a v : Word) : (s.memWrite a v).Inv := by
  refine ⟨memWrite_keeps_wf h.mem_wf a v, ?_, h.rz_cell⟩
  have hw := h.held_wf
  simp only [Held.wf, Bool.and_eq_true, List.all_eq_true] at hw ⊢
  simp only [memWrite_mem]
  by_cases hc : s.contentAt a = some v
  · have hheld : (s.memWrite a v).held = s.held := by simp [State.memWrite, hc]
    rw [hheld]
    refine ⟨hw.1, fun e he => ?_⟩
    have hok := hw.2 e he
    by_cases hk : e.1 = a.toNat
    · have hc' : lookupCell s.mem a.toNat = some v := hc
      simpa [heldEntryOk, lookupCell_insertCell, hk, hc'] using hok
    · exact heldEntryOk_insertCell_other v hk hok
  · have hheld : (s.memWrite a v).held =
        insertCell s.held a.toNat (formerAfterStore (s.formerAt a) (s.contentAt a) v) := by
      simp [State.memWrite, hc]
    rw [hheld]
    refine ⟨risingCells_insertCell _ _ _ a.isLt hw.1, fun e he => ?_⟩
    rcases mem_insertCell s.held _ a.isLt hw.1 he with rfl | ⟨he, hk⟩
    · exact heldEntryOk_store (formerAt_rising h a) hc
    · exact heldEntryOk_insertCell_other v hk (hw.2 e he)

/-- Placing a word keeps the invariant. -/
theorem inv_place {s : State} (h : s.Inv) (a w : Word) : (s.place a w).Inv := by
  refine ⟨place_keeps_wf h.mem_wf a w, ?_, h.rz_cell⟩
  have hw := h.held_wf
  simp only [Held.wf, Bool.and_eq_true, List.all_eq_true] at hw ⊢
  refine ⟨risingCells_removeCell _ _ hw.1, fun e he => ?_⟩
  obtain ⟨he, hk⟩ := mem_removeCell _ _ he
  exact heldEntryOk_insertCell_other w hk (hw.2 e he)

/-- An ALU operation keeps the invariant. -/
theorem inv_aluOp {s : State} (h : s.Inv) (op : Word → Word → AluResult) (rd ra rb : Reg) :
    (s.aluOp op rd ra rb).Inv :=
  inv_advancePc (inv_setFlags (inv_setReg h _ _) _)

end Sys2Proof.Machine
end

