-- ==== Sys2Proof/Laws/Exec.lean ====
section
/-! SUPPORT. What `exec` and `step` can do, said once: every instruction answers a next state, and a step
that goes on ran the decoded word. -/

namespace Sys2Proof.Machine

/-- The state an instruction leaves (40_immediate_moves.md to 42_alu.md, one line for each). -/
def effect : Instr → State → State
  | .movl rd imm8, s => (s.setReg rd (lowByteOnly imm8)).advancePc
  | .seth rd imm8, s => (s.setReg rd (withHighByte imm8 (s.getReg rd))).advancePc
  | .ldr rd ra, s => (s.setReg rd (s.memRead (s.effectiveAddress ra))).advancePc
  | .str rd ra, s => (s.memWrite (s.effectiveAddress ra) (s.getReg rd)).advancePc
  | .and rd ra rb, s => s.aluOp andResult rd ra rb
  | .orr rd ra rb, s => s.aluOp orrResult rd ra rb
  | .add rd ra rb, s => s.aluOp addResult rd ra rb
  | .sub rd ra rb, s => s.aluOp subResult rd ra rb

/-- Every instruction runs to a next state. -/
theorem exec_eq_effect (i : Instr) (s : State) : exec i s = .next (effect i s) := by
  cases i <;> rfl

/-- An instruction's next state is its effect. -/
theorem eq_effect_of_exec {i : Instr} {s t : State} (h : exec i s = .next t) : t = effect i s := by
  rw [exec_eq_effect] at h
  exact (Host.Outcome.next.inj h).symm

/-- What every instruction leaves alone: `pc` counts on, the mark and the counter of fetches stay. -/
theorem effect_common (i : Instr) (s : State) :
    (effect i s).pc = s.pc + 1 ∧ (effect i s).refused = s.refused ∧
      (effect i s).fetches = s.fetches := by
  cases i <;> exact ⟨rfl, rfl, rfl⟩

/-- A step that goes on ran the instruction the fetched word decodes to. -/
theorem step_next_cases {s t : State} (h : step s = .next t) :
    s.refused = none ∧ ∃ i, decode s.fetch = .instr i ∧ t = effect i s.countFetch := by
  unfold step at h
  split at h
  · cases h
  · rename_i hr
    refine ⟨hr, ?_⟩
    split at h
    · cases h
    · rename_i i hi
      exact ⟨i, hi, eq_effect_of_exec h⟩

/-- A step that is refused had its mark set, or fetched a word without a meaning. -/
theorem step_refused_cases {s : State} {r : Refusal} (h : step s = .refused r) :
    s.refused = some r ∨
      (s.refused = none ∧ ∃ reason, decode s.fetch = .refused reason ∧ r = refusalAt s.pc reason) := by
  unfold step at h
  split at h
  · rename_i r' hr
    left
    rw [hr]
    exact congrArg some (Host.Outcome.refused.inj h)
  · rename_i hr
    right
    refine ⟨hr, ?_⟩
    split at h
    · rename_i reason hd
      exact ⟨reason, hd, (Host.Outcome.refused.inj h).symm⟩
    · rw [exec_eq_effect] at h
      cases h

end Sys2Proof.Machine
end

