-- ==== Sys2Proof/Laws/PerInstr.lean ====
section
/-! SUPPORT. Statements about every instruction as syntax, one lemma for each constructor. -/

namespace Sys2Proof.Laws.EncodedRow

/-- The mnemonic an instruction stands for. -/
def mnemonicOf : Instr → Mnemonic
  | .movl _ _ => .MOVL
  | .seth _ _ => .SETH
  | .ldr _ _ => .LDR
  | .str _ _ => .STR
  | .and _ _ _ => .AND
  | .orr _ _ _ => .ORR
  | .add _ _ _ => .ADD
  | .sub _ _ _ => .SUB

/-- The word of a well-formed instruction carries the opcode of its own row of the opcode map, has that
row's fixed bits, and has `cond` = 0 (30_encoding.md R57, R58). -/
def Statement (i : Instr) : Prop :=
  i.wellFormed = true →
    ∃ row ∈ opcodeTable, row.mnemonic = mnemonicOf i ∧ encode i &&& row.mask = row.pattern ∧
      condField (encode i) = false

theorem formatI_fixed (op : Word) (rd : Reg) (imm8 : Nat) (h : imm8 ≤ 255)
    (hop : op = 0x0000 ∨ op = 0x2000) :
    encodeI op rd imm8 &&& 0xF000 = op ∧ condField (encodeI op rd imm8) = false := by
  have key : ∀ b : BitVec 8, ∀ o : Word, o = 0x0000 ∨ o = 0x2000 → ∀ r : Reg,
      encodeI o r b.toNat &&& 0xF000 = o ∧ condField (encodeI o r b.toNat) = false := by
    intro b o ho r
    rcases ho with rfl | rfl <;> cases r <;> revert b <;> decide
  have hb : (BitVec.ofNat 8 imm8).toNat = imm8 := by
    simp only [BitVec.toNat_ofNat]
    omega
  simpa [hb] using key (BitVec.ofNat 8 imm8) op hop rd

theorem movl (rd : Reg) (imm8 : Nat) : Statement (.movl rd imm8) := fun h => by
  have hi : imm8 ≤ 255 := by simpa [Instr.wellFormed, immInRange] using h
  have := formatI_fixed 0x0000 rd imm8 hi (.inl rfl)
  exact ⟨⟨.MOVL, 0x0000, 0xF000⟩, by decide, rfl, this.1, this.2⟩

theorem seth (rd : Reg) (imm8 : Nat) : Statement (.seth rd imm8) := fun h => by
  have hi : imm8 ≤ 255 := by simpa [Instr.wellFormed, immInRange] using h
  have := formatI_fixed 0x2000 rd imm8 hi (.inr rfl)
  exact ⟨⟨.SETH, 0x2000, 0xF000⟩, by decide, rfl, this.1, this.2⟩

theorem ldr (rd ra : Reg) : Statement (.ldr rd ra) := fun _ =>
  ⟨⟨.LDR, 0x4000, 0xF08F⟩, by decide, rfl, by cases rd <;> cases ra <;> decide⟩

theorem str (rd ra : Reg) : Statement (.str rd ra) := fun _ =>
  ⟨⟨.STR, 0x7000, 0xF08F⟩, by decide, rfl, by cases rd <;> cases ra <;> decide⟩

theorem and (rd ra rb : Reg) : Statement (.and rd ra rb) := fun _ =>
  ⟨⟨.AND, 0x8000, 0xF088⟩, by decide, rfl, by cases rd <;> cases ra <;> cases rb <;> decide⟩

theorem orr (rd ra rb : Reg) : Statement (.orr rd ra rb) := fun _ =>
  ⟨⟨.ORR, 0x9000, 0xF088⟩, by decide, rfl, by cases rd <;> cases ra <;> cases rb <;> decide⟩

theorem add (rd ra rb : Reg) : Statement (.add rd ra rb) := fun _ =>
  ⟨⟨.ADD, 0xA000, 0xF088⟩, by decide, rfl, by cases rd <;> cases ra <;> cases rb <;> decide⟩

theorem sub (rd ra rb : Reg) : Statement (.sub rd ra rb) := fun _ =>
  ⟨⟨.SUB, 0xB000, 0xF088⟩, by decide, rfl, by cases rd <;> cases ra <;> cases rb <;> decide⟩

end Sys2Proof.Laws.EncodedRow
end

