-- ==== Sys2Proof/Tests/Slice0.lean ====
section
/-! SUPPORT. Tests. Expected values are the spec's: 95_test_vectors.md (the source's worked examples S1 to S10,
the derived vectors of section 2, the programs' first steps) and the encoding tables of 30_encoding.md. -/

namespace Sys2Proof.Tests

open Sys2Proof.Machine

/-- A small state: everything 0, the flags clear, no memory listed. -/
def blankState : State where
  regs := { r0 := 0, r1 := 0, r2 := 0, r3 := 0, r4 := 0, r5 := 0, r6 := 0, r7 := 0 }
  flags := { c := false, v := false, n := false, z := false }
  pc := 0
  mem := []
  held := []
  refused := none
  fetches := 0

/-- The small state with r1, r2 and r3 given. -/
def withRegs (x1 x2 x3 : Word) : State :=
  { blankState with regs := { blankState.regs with r1 := x1, r2 := x2, r3 := x3 } }

/-- A `CVNZ` display (00_scope.md R6). -/
def cvnz (c v n z : Bool) : Flags := { c := c, v := v, n := n, z := z }

/-- The state after an instruction, read by a test. -/
def after {α : Type} (i : Instr) (s : State) (read : State → α) : Option α :=
  match exec i s with
  | .next t => some (read t)
  | .fault f => nomatch f
  | .refused _ => none

/-- The state after a step, read by a test. -/
def afterStep {α : Type} (s : State) (read : State → α) : Option α :=
  match step s with
  | .next t => some (read t)
  | .fault f => nomatch f
  | .refused _ => none

/-! ## WellFormed: an ill-formed term for its one check -/

theorem test_movl_256_ill_formed : (Instr.movl .r1 256).wellFormed = false := by decide
theorem test_seth_256_ill_formed : (Instr.seth .r1 256).wellFormed = false := by decide
theorem test_movl_255_well_formed : (Instr.movl .r1 255).wellFormed = true := by decide

/-! ## Decoding: words written out bit by bit from the tables of 30_encoding.md R53 to R57 -/

theorem test_decode_movl : decode 0b0000_0_010_01000101#16 = .instr (.movl .r2 0x45) := by decide
theorem test_decode_seth : decode 0b0010_0_001_10101011#16 = .instr (.seth .r1 0xAB) := by decide
theorem test_decode_ldr : decode 0b0100_0_010_0_001_0000#16 = .instr (.ldr .r2 .r1) := by decide
theorem test_decode_str : decode 0b0111_0_010_0_001_0000#16 = .instr (.str .r2 .r1) := by decide
theorem test_decode_and : decode 0b1000_0_011_0_001_0_010#16 = .instr (.and .r3 .r1 .r2) := by decide
theorem test_decode_orr : decode 0b1001_0_011_0_001_0_010#16 = .instr (.orr .r3 .r1 .r2) := by decide
theorem test_decode_add : decode 0b1010_0_011_0_001_0_010#16 = .instr (.add .r3 .r1 .r2) := by decide
theorem test_decode_sub : decode 0b1011_0_111_0_110_0_101#16 = .instr (.sub .r7 .r6 .r5) := by decide
theorem test_decode_unknown_opcode :
    [0x1000, 0x3000, 0x5123, 0x6000, 0xC000, 0xFFFF].map decode =
      List.replicate 6 (.refused .unknownOpcode) := by decide
theorem test_decode_reserved_bits :
    [0x4211, 0x4290, 0x7218, 0xA392, 0xA31A].map decode =
      List.replicate 5 (.refused .reservedBits) := by decide
theorem test_decode_cond1 :
    [0x0A45, 0x4A10, 0xAB12, 0x2FFF].map decode = List.replicate 4 (.refused .cond1) := by decide
theorem test_decode_table_word : decodeTableWord 16 0x4210 = some (.ldr .r2 .r1) := by decide

/-! ## Encoding: the words of 95_test_vectors.md -/

theorem test_encode_words :
    [Instr.movl .r3 0xFF, .seth .r1 0xAB, .ldr .r2 .r1, .str .r2 .r1, .and .r3 .r1 .r2,
      .orr .r3 .r1 .r2, .add .r1 .r1 .r2, .sub .r7 .r7 .r7].map encode =
      [0x03FF, 0x21AB, 0x4210, 0x7210, 0x8312, 0x9312, 0xA112, 0xB777] := by decide

/-! ## The instructions -/

/-- S4. -/
theorem test_movl_clears_high_byte :
    after (.movl .r1 0xAB) (withRegs 0x1234 0 0) (fun t => t.getReg .r1) = some 0x00AB := by decide
/-- Section 2.2, `movl r1, 0` with CVNZ = 1010. -/
theorem test_movl_keeps_flags :
    after (.movl .r1 0) { withRegs 0xFFFF 0 0 with flags := cvnz true false true false }
      (fun t => (t.getReg .r1, t.flags)) = some (0, cvnz true false true false) := by decide
/-- S7. -/
theorem test_seth_keeps_low_byte :
    after (.seth .r1 0xAB) (withRegs 0x1234 0 0) (fun t => t.getReg .r1) = some 0xAB34 := by decide
/-- Section 2.2, `seth r2, 0xFF` on 0. -/
theorem test_seth_on_zero :
    after (.seth .r2 0xFF) (withRegs 0 0 0) (fun t => (t.getReg .r2, t.flags)) =
      some (0xFF00, cvnz false false false false) := by decide
/-- Section 2.3, `ldr r1, [r1]`. -/
theorem test_ldr_into_its_address_register :
    after (.ldr .r1 .r1) { withRegs 0x0100 0 0 with mem := [(0x0100, 0xBEEF)] }
      (fun t => t.getReg .r1) = some 0xBEEF := by decide
/-- Section 2.3, the top address. -/
theorem test_ldr_top_address :
    after (.ldr .r2 .r1) { withRegs 0xFFFF 0 0 with mem := [(0xFFFF, 0x0001)] }
      (fun t => t.getReg .r2) = some 0x0001 := by decide
/-- Section 2.3, `str r2, [r1]`. -/
theorem test_str_stores_register :
    after (.str .r2 .r1) (withRegs 0x0100 0xCAFE 0) (fun t => (t.memRead 0x0100, t.getReg .r1)) =
      some (0xCAFE, 0x0100) := by decide
/-- P4, first line: `held[1]` = {0x03FF, 0x0385}. -/
theorem test_str_adds_to_held :
    after (.str .r2 .r1) { withRegs 1 0x0385 0 with mem := [(0, 0x7210), (1, 0x03FF)] }
      (fun t => t.heldAt 1) = some [0x0385, 0x03FF] := by decide
/-- S3. -/
theorem test_and_example :
    after (.and .r3 .r1 .r2) (withRegs 0b1100 0b1010 0) (fun t => (t.getReg .r3, t.flags)) =
      some (0b1000, cvnz false false false false) := by decide
/-- Section 2.4, C and V cleared. -/
theorem test_and_clears_c_and_v :
    after (.and .r1 .r1 .r1) { withRegs 1 0 0 with flags := cvnz true true true true }
      (fun t => (t.getReg .r1, t.flags)) = some (1, cvnz false false false false) := by decide
/-- S6. -/
theorem test_orr_example :
    after (.orr .r3 .r1 .r2) (withRegs 0b1100 0b1010 0) (fun t => (t.getReg .r3, t.flags)) =
      some (0b1110, cvnz false false false false) := by decide
/-- Section 2.4, N from the result. -/
theorem test_orr_negative :
    after (.orr .r3 .r1 .r2) (withRegs 0x8000 0x0001 0) (fun t => (t.getReg .r3, t.flags)) =
      some (0x8001, cvnz false false true false) := by decide
/-- S1. -/
theorem test_add_carry :
    after (.add .r3 .r1 .r2) (withRegs 0xFFFF 0x0006 0) (fun t => (t.getReg .r3, t.getReg .r1, t.flags)) =
      some (0x0005, 0xFFFF, cvnz true false false false) := by decide
/-- Section 2.5, 0x8000 + 0x8000. -/
theorem test_add_carry_overflow_zero :
    after (.add .r3 .r1 .r2) (withRegs 0x8000 0x8000 0) (fun t => (t.getReg .r3, t.flags)) =
      some (0x0000, cvnz true true false true) := by decide
/-- S10. -/
theorem test_sub_overflow :
    after (.sub .r3 .r1 .r2) (withRegs 0x0001 0x8000 0) (fun t => (t.getReg .r3, t.flags)) =
      some (0x8001, cvnz false true true false) := by decide
/-- S9 as corrected by 90_conflicts.md C2. -/
theorem test_sub_borrow_clears_c :
    after (.sub .r3 .r1 .r2) (withRegs 0x0005 0x0008 0) (fun t => (t.getReg .r3, t.flags)) =
      some (0xFFFD, cvnz false false true false) := by decide
/-- S2: `add rz, r1, r2`. -/
theorem test_add_to_rz_writes_flags :
    after (.add rzIndex .r1 .r2) (withRegs 0x7FFF 0x0005 0) (fun t => t.flags) =
      some (cvnz false true true false) := by decide
/-- Section 2.7, the wrap of `pc`. -/
theorem test_pc_wraps :
    after (.movl .r1 0) { blankState with pc := 0xFFFF } (fun t => t.pc) = some 0 := by decide

/-! ## Step and run -/

/-- S5, its first line: the LDR loads its own machine code. -/
theorem test_step_ldr_own_word :
    afterStep { withRegs 0 0 0 with mem := [(0, 0x4210), (1, 0x0245)] }
      (fun t => (t.getReg .r2, t.pc)) = some (0x4210, 1) := by decide
/-- P6, its second line. -/
theorem test_run_refused_at_cond1 :
    (match run 2 2 (State.boot [0x0101, 0x0A45]) with
      | .refused t => some (t.refused, t.pc, t.getReg .r1)
      | _ => none) = some (some (.cond1 1), 1, 1) := by decide
/-- R152, D10: with data after the code (here a word that would be refused) the run is over at the end of the
code. -/
theorem test_default_halt_pc_is_before_the_data :
    (match runProgram [0x0101] [0x0A45] 2 with
      | .over t => some (t.pc, t.getReg .r1, t.memRead 1)
      | _ => none) = some (1, 1, 0x0A45) := by decide
/-- The first instruction after reset runs, for each row of the opcode map. -/
theorem test_first_step_after_reset :
    [0x0000, 0x2000, 0x4000, 0x7000, 0x8000, 0x9000, 0xA000, 0xB000].map
      (fun w => afterStep (State.reset.withFetchWord 16 w) (fun t => t.pc)) =
      List.replicate 8 (some 1) := by decide

/-! ## The assembler (30_encoding.md R64 to R71) -/

/-- S5, S8 and section 2.1. -/
theorem test_assemble_text :
    assembleText ["ldr r2, [r1]".toList, "movl r2, 0x45 @ what happens if we change r2?".toList,
      "@ a comment alone".toList, "add r1, r2".toList, "str r2, [r1]".toList] =
      some [0x4210, 0x0245, 0xA112, 0x7210] := by decide
/-- The model's choice of log 21: blanks inside the brackets. -/
theorem test_assemble_blanks_in_brackets :
    assembleText ["ldr r2, [ r1 ]".toList] = some [0x4210] := by decide
theorem test_assemble_rejects_suffix_and_range :
    [assembleText ["addeq r1, r2".toList], assembleText ["movl r1, 256".toList],
      assembleText ["ADD r1, r2".toList], assembleText ["movl r1, 0b1".toList]] =
      [none, none, none, none] := by decide

/-! ## Witnesses: for each statement with hypotheses, a state and operands that meet them together -/

/-- The state of P2's first step. -/
def ownWord : State := { withRegs 0 0 0 with mem := [(0, 0x4210), (1, 0x0245)] }

/-- The state of P4's first step. -/
def storeNext : State := { withRegs 1 0x0385 0 with mem := [(0, 0x7210), (1, 0x03FF)] }

/-- A state whose next word is refused, one for each reason. -/
def refusedNext (w : Word) : State := { blankState with mem := [(0, w)] }

theorem r1_ne_rz : Reg.r1 ≠ rzIndex := fun h => rzIndex_range.1 h.symm

theorem r2_ne_rz : Reg.r2 ≠ rzIndex := fun h => rzIndex_range.2.1 h.symm

theorem blankState_inv : blankState.Inv :=
  ⟨by decide, by decide, by cases h : rzIndex <;> rfl⟩

/-- A fetched word that decodes lets the step go on, which the witnesses below need of three states. -/
theorem goes_on {s : State} {i : Instr} (hr : s.refused = none) (hd : decode s.fetch = .instr i) :
    ∃ t, step s = .next t := by
  cases h : step s with
  | next t => exact ⟨t, rfl⟩
  | fault f => nomatch f
  | refused r =>
    rcases step_refused_cases h with h' | ⟨-, reason, h', -⟩
    · rw [hr] at h'
      cases h'
    · rw [hd] at h'
      cases h'

theorem ownWord_goes_on : ∃ t, step ownWord = .next t :=
  goes_on (i := .ldr .r2 .r1) rfl (by decide)

theorem storeNext_goes_on : ∃ t, step storeNext = .next t :=
  goes_on (i := .str .r2 .r1) rfl (by decide)

theorem witness_MovlWritesZeroExtendedImmediate : (0 : Nat) ≤ 255 ∧ (255 : Nat) ≤ 255 := by decide
theorem witness_SethReplacesHighByte : (0 : Nat) ≤ 255 ∧ (255 : Nat) ≤ 255 := by decide
theorem witness_FlagsDoNotDependOnDestination :
    Instr.sub ∈ [Instr.and, Instr.orr, Instr.add, Instr.sub] ∧ Reg.r1 ≠ rzIndex :=
  ⟨by simp, r1_ne_rz⟩
theorem witness_MovlThenSethLoadsConstant : Reg.r1 ≠ rzIndex := r1_ne_rz
theorem witness_RzReadsZeroAndLosesWrites : ∃ t, exec (.movl .r1 5) blankState = .next t := ⟨_, rfl⟩
theorem witness_OnlyNamedRegistersMatter :
    (∃ t, exec (.add .r3 .r1 .r2) blankState = .next t) ∧
    ∀ r ∈ registersRead (.add .r3 .r1 .r2),
      { blankState with regs := { blankState.regs with r3 := 9, r7 := 5 } }.getReg r =
        blankState.getReg r := by
  refine ⟨⟨_, rfl⟩, ?_⟩
  intro r hr
  simp only [registersRead, List.mem_cons, List.not_mem_nil, or_false] at hr
  rcases hr with rfl | rfl <;> rfl
theorem witness_FlagsWrittenByFourInstructions :
    writesFlags (.ldr .r1 .r2) = false ∧ writesFlags (.sub .r1 .r2 .r3) = true := by decide
theorem witness_FlagsNeverSteerAStep :
    (∃ t, step ownWord = .next t) ∧ step (refusedNext 0x0A45) = .refused (.cond1 0) :=
  ⟨ownWord_goes_on, rfl⟩
theorem witness_StoreOfSameWordChangesNothing :
    Memory.wf ownWord.mem = true ∧ ownWord.contentAt 1 ≠ none := by decide
theorem witness_LoadSeesEarlierStore :
    ownWord.getReg .r1 = ownWord.getReg .r2 ∧ Reg.r2 ≠ rzIndex :=
  ⟨by decide, r2_ne_rz⟩
theorem witness_OnlyStrWritesMemory :
    ((∃ t, step ownWord = .next t) ∧ decode ownWord.fetch = .instr (.ldr .r2 .r1) ∧
      writesMemory (.ldr .r2 .r1) = false) ∧
    ((∃ t, step storeNext = .next t) ∧ decode storeNext.fetch = .instr (.str .r2 .r1) ∧
      writesMemory (.str .r2 .r1) = true) :=
  ⟨⟨ownWord_goes_on, by decide, rfl⟩, ⟨storeNext_goes_on, by decide, rfl⟩⟩
theorem witness_FetchReturnsAnyHeldWord : ∀ v ∈ ownWord.heldAt 0, v = ownWord.memRead 0 :=
  fun _ hv => List.mem_singleton.mp hv
theorem witness_HeldWordsOnlyGrow : ∃ t, step storeNext = .next t := storeNext_goes_on
theorem witness_StoreOverNextInstructionLeavesTwoOutcomes :
    storeNext.getReg .r1 = storeNext.pc + 1 ∧ FetchSettled storeNext (storeNext.pc + 1) :=
  ⟨by decide, rfl⟩
theorem witness_LdrOfOwnAddressLoadsOwnWord :
    ownWord.refused = none ∧ FetchSettled ownWord ownWord.pc ∧
      ownWord.memRead ownWord.pc = encode (.ldr .r2 .r1) ∧ ownWord.getReg .r1 = ownWord.pc ∧
      Reg.r2 ≠ rzIndex :=
  ⟨rfl, rfl, by decide, by decide, r2_ne_rz⟩
theorem witness_DecodeOfEncodeIsInstruction : (Instr.seth .r7 255).wellFormed = true := by decide
theorem witness_EncodeOfDecodeIsWord : decode 0x27FF = .instr (.seth .r7 255) := by decide
theorem witness_AssembledLinesDecode :
    assemble (.add none (.numbered .r1) (.numbered .r2)) = some (.add .r1 .r1 .r2) ∧ 255 < 256 ∧
      Reg.r1 ≠ rzIndex ∧ 255 ≤ 255 :=
  ⟨by decide, by decide, r1_ne_rz, le_rfl⟩
theorem witness_StepRunsDecodedInstruction :
    ownWord.refused = none ∧ decode ownWord.fetch = .instr (.ldr .r2 .r1) := by decide
theorem witness_PlacedWordIsRunNext : decodeTableWord 16 0xB777 = some (.sub .r7 .r7 .r7) := by decide
theorem witness_MeaninglessWordIsRefused :
    ((refusedNext 0x1000).refused = none ∧ (refusedNext 0x1000).pc ≠ 1 ∧
      decode (refusedNext 0x1000).fetch = .refused .unknownOpcode) ∧
    ((refusedNext 0x4211).refused = none ∧ (refusedNext 0x4211).pc ≠ 1 ∧
      decode (refusedNext 0x4211).fetch = .refused .reservedBits) ∧
    ((refusedNext 0x0A45).refused = none ∧ (refusedNext 0x0A45).pc ≠ 1 ∧
      decode (refusedNext 0x0A45).fetch = .refused .cond1) := by decide
theorem witness_NothingFaults : ownWord.refused = none := rfl
theorem witness_RunIsOverAtHaltPc : ownWord.refused = none := rfl
theorem witness_RunEndsWithin65536Steps : ownWord.refused = none ∧ 65536 ≤ 65536 := ⟨rfl, le_rfl⟩
theorem witness_DefaultHaltPcIsAfterCode :
    ([0x0101] : List Word).length < 65536 ∧ (imageWords [0x0101] [0x0A45]).length ≤ 65536 ∧
      (0 : Word).toNat < ([0x0101] : List Word).length ∧
      ([0x0101] : List Word).length ≤ (1 : Word).toNat ∧
      (1 : Word).toNat < ([0x0101] : List Word).length + ([0x0A45] : List Word).length ∧
      ([0x0101] : List Word).length ≤ 1 := by decide
theorem witness_BootHoldsImage : ([0x4210, 0x0245] : List Word).length ≤ 65536 := by decide
theorem witness_StepKeepsInvariant :
    (blankState.place 0 0x4210).Inv ∧ ∃ t, step (blankState.place 0 0x4210) = .next t :=
  ⟨inv_place blankState_inv 0 0x4210, goes_on (i := .ldr .r2 .r1) rfl (by decide)⟩

end Sys2Proof.Tests
end

section
/-! The zero register `rz` (10_state.md R11), and the four ALU forms as instances of the one `State.aluOp`. -/

namespace Sys2Proof.Machine

/-- The flags after an ALU operation are those of its result, whatever the destination (42_alu.md R104). -/
@[simp] theorem aluOp_flags (s : State) (op : Word → Word → AluResult) (rd ra rb : Reg) :
    (s.aluOp op rd ra rb).flags = (op (s.getReg ra) (s.getReg rb)).flags := rfl

/-- AND, ORR, ADD and SUB each run as `State.aluOp` of their own result function (42_alu.md R100 to R103). -/
theorem exec_eq_aluOp {p : (Reg → Reg → Reg → Instr) × (Word → Word → AluResult)}
    (hp : p ∈ [(Instr.and, andResult), (Instr.orr, orrResult), (Instr.add, addResult),
      (Instr.sub, subResult)]) (rd ra rb : Reg) (s : State) :
    exec (p.1 rd ra rb) s = .next (s.aluOp p.2 rd ra rb) := by
  simp only [List.mem_cons, List.not_mem_nil, or_false] at hp
  obtain rfl | rfl | rfl | rfl := hp <;> exact exec_eq_effect _ s

/-- Settles O15: `rz` reads 0 in every state, so also after an instruction; a lost write leaves the whole
state; and an ALU form takes its flags from the result, not from the register it names. -/
theorem rzReadsZeroAndLosesWrites : Obligations.RzReadsZeroAndLosesWrites := by
  intro s
  refine ⟨getReg_rz s, setReg_rz s, fun _ t _ => getReg_rz t, fun p hp ra rb => ?_⟩
  exact ⟨s.aluOp p.2 rzIndex ra rb, exec_eq_aluOp hp rzIndex ra rb s, aluOp_flags ..⟩

end Sys2Proof.Machine
end

section
/-! Memory as a map of words: one store, and a list of stores (20_memory.md R35, R36). -/

namespace Sys2Proof.Machine

/-- The stored word is read back at its address. -/
theorem memRead_memWrite_same (s : State) (a v : Word) : (s.memWrite a v).memRead a = v := by
  rw [memRead_memWrite, if_pos rfl]

/-- A store leaves the word at every other address. -/
theorem memRead_memWrite_of_ne (s : State) {a b : Word} (v : Word) (h : b ≠ a) :
    (s.memWrite a v).memRead b = s.memRead b := by
  rw [memRead_memWrite, if_neg h]

/-- Settles O21: the word and its frame by the read-after-store lemmas, the held words by
`mem_heldAt_memWrite`; the rest of the state is not touched. -/
theorem memWriteChangesOneWord : Obligations.MemWriteChangesOneWord := fun s a v =>
  ⟨memRead_memWrite_same s a v, fun _ hb => memRead_memWrite_of_ne s v hb,
    fun b => mem_heldAt_memWrite s a b v, getReg_memWrite s a v, memWrite_flags s a v, memWrite_pc s a v,
    memWrite_refused s a v⟩

/-- Settles O22, by induction on the list of stores from its end: the last store decides the read if it is
to the address read, and otherwise changes nothing there. -/
theorem memReadReturnsLatestWrite : Obligations.MemReadReturnsLatestWrite := by
  intro stores s a
  induction stores using List.reverseRecOn with
  | nil => rfl
  | append_singleton stores p ih =>
    rw [List.foldl_concat, List.filter_append]
    by_cases hp : p.1 = a
    · subst hp
      simp [memRead_memWrite_same]
    · rw [memRead_memWrite_of_ne _ _ (Ne.symm hp), ih]
      simp [hp]

end Sys2Proof.Machine
end

section
/-! The assembler's default destination in the format R lines (30_encoding.md R67). -/

namespace Sys2Proof.Machine

/-- A format R line without destination has the register fields of the line with `ra` as destination,
whatever instruction it builds (30_encoding.md R67). -/
theorem assembleR_none (build : Reg → Reg → Reg → Instr) (ra rb : RegName) :
    assembleR build none ra rb = assembleR build (some ra) ra rb := rfl

/-- Settles O34: each of the four lines goes through the one `assembleR`; the names `r1` and `r2` select their
own indices whatever `RZ_INDEX` is (10_state.md R12), so the line `add r1, r2` has one word. -/
theorem destinationDefaultsToFirstSource : Obligations.DestinationDefaultsToFirstSource := by
  intro ra rb
  have add_r1_r2 :
      assemble (.add none (.numbered .r1) (.numbered .r2)) = some (.add .r1 .r1 .r2) := rfl
  refine ⟨assembleR_none .and ra rb, assembleR_none .orr ra rb, assembleR_none .add ra rb,
    assembleR_none .sub ra rb, ?_⟩
  rw [add_r1_r2]
  decide

end Sys2Proof.Machine
end

section
/-! The decoder on the word of an instruction (30_encoding.md R62, R71): a word with the fixed bits of a row
and `cond` = 0 is that row's instruction, and the format I fields give back the operands. -/

namespace Sys2Proof

theorem opField_and (v w : Word) : opField (v &&& w) = opField v &&& opField w :=
  BitVec.extractLsb'_and

/-- Every row fixes the whole opcode. -/
theorem opcodeTable_opField_mask : ∀ row ∈ opcodeTable, opField row.mask = BitVec.allOnes 4 := by
  decide

/-- A row is found by its own opcode, since no two rows share one. -/
theorem opcodeRow_pattern : ∀ row ∈ opcodeTable, opcodeRow row.pattern = some row := by
  decide

/-- Only the opcode of a word selects its row. -/
theorem opcodeRow_congr {v w : Word} (h : opField v = opField w) : opcodeRow v = opcodeRow w := by
  simp only [opcodeRow, h]

/-- The row of a word is the one whose fixed bits it has. -/
theorem opcodeRow_of_fixed {row : OpcodeRow} (hrow : row ∈ opcodeTable) {w : Word}
    (hfix : w &&& row.mask = row.pattern) : opcodeRow w = some row := by
  have hop : opField w = opField row.pattern := by
    rw [← hfix, opField_and, opcodeTable_opField_mask row hrow, BitVec.and_allOnes]
  rw [opcodeRow_congr hop, opcodeRow_pattern row hrow]

/-- A word with the fixed bits of a row and `cond` = 0 decodes to the instruction of that row. -/
theorem decode_of_fixed {row : OpcodeRow} (hrow : row ∈ opcodeTable) {w : Word}
    (hfix : w &&& row.mask = row.pattern) (hcond : condField w = false) :
    decode w = .instr (buildInstr row.mnemonic w) := by
  simp [decode, opcodeRow_of_fixed hrow hfix, hfix, hcond]

/-- The word of a well-formed instruction decodes to its own mnemonic, with the fields of that word. -/
theorem decode_encode_eq_buildInstr {i : Instr} (hi : Laws.EncodedRow.Statement i)
    (hwf : i.wellFormed = true) :
    decode (encode i) = .instr (buildInstr (Laws.EncodedRow.mnemonicOf i) (encode i)) := by
  obtain ⟨row, hrow, hmnemonic, hfix, hcond⟩ := hi hwf
  rw [← hmnemonic]
  exact decode_of_fixed hrow hfix hcond

theorem extract_rd_regAt (rd : Reg) : (regAt rd 8).extractLsb' 8 3 = rd.toBits := by
  cases rd <;> rfl

theorem extract_imm_regAt (rd : Reg) : (regAt rd 8).extractLsb' 0 8 = 0 := by
  cases rd <;> rfl

/-- The `rd` field of a format I word, whose opcode leaves that field free. -/
theorem rdField_encodeI {op : Word} (hop : op.extractLsb' 8 3 = 0) (rd : Reg) {imm8 : Nat}
    (h : imm8 ≤ 255) : rdField (encodeI op rd imm8) = rd := by
  have himm : (BitVec.ofNat 16 imm8).extractLsb' 8 3 = 0 := by
    apply BitVec.eq_of_toNat_eq
    simp only [BitVec.extractLsb'_toNat, BitVec.toNat_ofNat, Nat.shiftRight_eq_div_pow,
      BitVec.ofNat_eq_ofNat]
    omega
  simp [rdField, encodeI, BitVec.extractLsb'_or, hop, himm, extract_rd_regAt, Reg.ofBits_toBits]

/-- The immediate of a format I word, whose opcode leaves that field free. -/
theorem immField_encodeI {op : Word} (hop : op.extractLsb' 0 8 = 0) (rd : Reg) {imm8 : Nat}
    (h : imm8 ≤ 255) : immField (encodeI op rd imm8) = imm8 := by
  have himm : ((BitVec.ofNat 16 imm8).extractLsb' 0 8).toNat = imm8 := by
    simp only [BitVec.extractLsb'_toNat, BitVec.toNat_ofNat, Nat.shiftRight_zero]
    omega
  simp [immField, encodeI, BitVec.extractLsb'_or, hop, extract_imm_regAt, himm]

theorem decode_encode_movl (rd : Reg) {imm8 : Nat} (h : imm8 ≤ 255) :
    decode (encode (.movl rd imm8)) = .instr (.movl rd imm8) := by
  rw [decode_encode_eq_buildInstr (Laws.EncodedRow.movl rd imm8) (decide_eq_true h)]
  simp [Laws.EncodedRow.mnemonicOf, buildInstr, encode, rdField_encodeI, immField_encodeI, h]

theorem decode_encode_seth (rd : Reg) {imm8 : Nat} (h : imm8 ≤ 255) :
    decode (encode (.seth rd imm8)) = .instr (.seth rd imm8) := by
  rw [decode_encode_eq_buildInstr (Laws.EncodedRow.seth rd imm8) (decide_eq_true h)]
  simp [Laws.EncodedRow.mnemonicOf, buildInstr, encode, rdField_encodeI, immField_encodeI, h]

/-- Two bytes put together by `|||` are their sum as a number. -/
theorem ofNat_bytes_or (high : Nat) {low : Nat} (h : low ≤ 255) :
    BitVec.ofNat 16 (high * 256) ||| BitVec.ofNat 16 low = BitVec.ofNat 16 (high * 256 + low) := by
  have hsum : high * 256 + low = high * 256 ||| low := by
    rw [Nat.mul_comm]
    exact Nat.two_pow_add_eq_or_of_lt (i := 8) (by omega) high
  rw [hsum, BitVec.ofNat_or]

/-- The format I word is the sum of its parts: the high byte holds opcode and `rd`, the low byte the
immediate. -/
theorem encodeI_eq_ofNat {op : Word} {high : Nat} {rd : Reg}
    (hhigh : op ||| regAt rd 8 = BitVec.ofNat 16 (high * 256)) {imm8 : Nat} (h : imm8 ≤ 255) :
    encodeI op rd imm8 = BitVec.ofNat 16 (high * 256 + imm8) := by
  rw [encodeI, hhigh, ofNat_bytes_or high h]

theorem encode_movl_eq_ofNat (rd : Reg) {imm8 : Nat} (h : imm8 ≤ 255) :
    encode (.movl rd imm8) = BitVec.ofNat 16 (rd.toBits.toNat * 256 + imm8) :=
  encodeI_eq_ofNat (by cases rd <;> rfl) h

theorem encode_seth_eq_ofNat (rd : Reg) {imm8 : Nat} (h : imm8 ≤ 255) :
    encode (.seth rd imm8) = BitVec.ofNat 16 (0x2000 + rd.toBits.toNat * 256 + imm8) := by
  have hsum : 0x2000 + rd.toBits.toNat * 256 = (0x20 + rd.toBits.toNat) * 256 := by omega
  rw [hsum]
  exact encodeI_eq_ofNat (by cases rd <;> rfl) h

end Sys2Proof
end

section
/-! The effect of an instruction that writes one register, and MOVL and SETH as two such instructions
(40_immediate_moves.md R80, R81). -/

namespace Sys2Proof.Machine

/-- Every instruction has the common effect. -/
theorem effect_commonEffect (i : Instr) (s : State) : CommonEffect s (effect i s) := by
  obtain ⟨hpc, hmark, hchoice⟩ := effect_common i s
  exact ⟨by rw [hpc, BitVec.toNat_add]; rfl, hmark, hchoice⟩

theorem onlyRegisterWritten_setReg_advancePc (s : State) (rd : Reg) (x : Word) :
    OnlyRegisterWritten s (s.setReg rd x).advancePc rd x :=
  fun q => getReg_setReg s rd q x

theorem memoryUnchanged_setReg_advancePc (s : State) (rd : Reg) (x : Word) :
    MemoryUnchanged s (s.setReg rd x).advancePc :=
  fun a => ⟨memRead_setReg s rd x a, fun v => by simp⟩

/-- An instruction whose effect is one register write and the increment of `pc`: it runs, and only that
register changes beside `pc`. -/
theorem exec_of_effect_setReg {i : Instr} {s : State} {rd : Reg} {x : Word}
    (h : effect i s = (s.setReg rd x).advancePc) :
    ∃ t, exec i s = .next t ∧ OnlyRegisterWritten s t rd x ∧ t.flags = s.flags ∧
      MemoryUnchanged s t ∧ CommonEffect s t := by
  refine ⟨effect i s, exec_eq_effect i s, ?_, ?_, ?_, effect_commonEffect i s⟩ <;> rw [h]
  · exact onlyRegisterWritten_setReg_advancePc s rd x
  · simp
  · exact memoryUnchanged_setReg_advancePc s rd x

/-- The zero-extended immediate as a number. -/
theorem lowByteOnly_eq_ofNat {imm8 : Nat} (h : imm8 ≤ 255) : lowByteOnly imm8 = BitVec.ofNat 16 imm8 := by
  apply BitVec.eq_of_toNat_eq
  simp only [lowByteOnly, immBits, BitVec.toNat_setWidth, BitVec.toNat_ofNat]
  omega

theorem and_lowByte_eq_ofNat (x : Word) : x &&& 0x00FF = BitVec.ofNat 16 (x.toNat % 256) := by
  apply BitVec.eq_of_toNat_eq
  have hlow : x.toNat &&& 255 = x.toNat % 256 := Nat.and_two_pow_sub_one_eq_mod x.toNat 8
  rw [BitVec.toNat_and, BitVec.toNat_ofNat, Nat.mod_eq_of_lt (by omega)]
  exact hlow

/-- The word of SETH as a number: the immediate above the old low byte. -/
theorem withHighByte_eq_ofNat {imm8 : Nat} (h : imm8 ≤ 255) (old : Word) :
    withHighByte imm8 old = BitVec.ofNat 16 (imm8 * 256 + old.toNat % 256) := by
  have hhigh : BitVec.ofNat 16 imm8 <<< 8 = BitVec.ofNat 16 (imm8 * 256) := by
    apply BitVec.eq_of_toNat_eq
    simp [Nat.shiftLeft_eq]
  rw [withHighByte, lowByteOnly_eq_ofNat h, hhigh, and_lowByte_eq_ofNat]
  exact ofNat_bytes_or imm8 (by omega)

/-- Settles O1: the word is the encoding of MOVL, which decodes to it; the effect of MOVL is one register
write, of the immediate as a number. -/
theorem movlWritesZeroExtendedImmediate : Obligations.MovlWritesZeroExtendedImmediate := by
  intro rd imm8 s h
  rw [← encode_movl_eq_ofNat rd h, ← lowByteOnly_eq_ofNat h]
  exact ⟨decode_encode_movl rd h, exec_of_effect_setReg rfl⟩

/-- Settles O2: the word is the encoding of SETH, which decodes to it; the effect of SETH is one register
write, of the immediate above the low byte that `rd` had. -/
theorem sethReplacesHighByte : Obligations.SethReplacesHighByte := by
  intro rd imm8 s h
  rw [← encode_seth_eq_ofNat rd h, ← withHighByte_eq_ofNat h]
  exact ⟨decode_encode_seth rd h, exec_of_effect_setReg rfl⟩

end Sys2Proof.Machine
end

section
/-! The decoder on the word of a format M instruction, LDR or STR (30_encoding.md R54, R71): it is the format I
word whose low byte is the `ra` field. -/

namespace Sys2Proof

theorem Reg.toBits_toNat_le (r : Reg) : r.toBits.toNat ≤ 7 := Nat.le_of_lt_succ r.toBits.isLt

/-- The `ra` field as a number: bits 6..4. -/
theorem regAt_ra_eq_ofNat (ra : Reg) : regAt ra 4 = BitVec.ofNat 16 (ra.toBits.toNat * 16) := by
  cases ra <;> rfl

theorem extract_ra_regAt_ra (ra : Reg) : (regAt ra 4).extractLsb' 4 3 = ra.toBits := by
  cases ra <;> rfl

theorem extract_ra_regAt_rd (rd : Reg) : (regAt rd 8).extractLsb' 4 3 = 0 := by
  cases rd <;> rfl

/-- A format M word is a format I word with the `ra` field in the low byte. -/
theorem encodeM_eq_encodeI (op : Word) (rd ra : Reg) :
    encodeM op rd ra = encodeI op rd (ra.toBits.toNat * 16) := by
  rw [encodeM, regAt_ra_eq_ofNat, encodeI]

/-- The `rd` field of a format M word, whose opcode leaves that field free. -/
theorem rdField_encodeM {op : Word} (hop : op.extractLsb' 8 3 = 0) (rd ra : Reg) :
    rdField (encodeM op rd ra) = rd := by
  have hra := ra.toBits_toNat_le
  rw [encodeM_eq_encodeI, rdField_encodeI hop rd (by omega)]

/-- The `ra` field of a format M word, whose opcode leaves that field free. -/
theorem raField_encodeM {op : Word} (hop : op.extractLsb' 4 3 = 0) (rd ra : Reg) :
    raField (encodeM op rd ra) = ra := by
  simp [raField, encodeM, BitVec.extractLsb'_or, hop, extract_ra_regAt_rd, extract_ra_regAt_ra,
    Reg.ofBits_toBits]

theorem decode_encode_ldr (rd ra : Reg) : decode (encode (.ldr rd ra)) = .instr (.ldr rd ra) := by
  rw [decode_encode_eq_buildInstr (Laws.EncodedRow.ldr rd ra) rfl]
  simp [Laws.EncodedRow.mnemonicOf, buildInstr, encode, rdField_encodeM, raField_encodeM]

theorem decode_encode_str (rd ra : Reg) : decode (encode (.str rd ra)) = .instr (.str rd ra) := by
  rw [decode_encode_eq_buildInstr (Laws.EncodedRow.str rd ra) rfl]
  simp [Laws.EncodedRow.mnemonicOf, buildInstr, encode, rdField_encodeM, raField_encodeM]

/-- The format M word is the sum of its parts: the high byte holds opcode and `rd`, the low byte `ra`. -/
theorem encodeM_eq_ofNat {op : Word} {high : Nat} {rd : Reg}
    (hhigh : op ||| regAt rd 8 = BitVec.ofNat 16 (high * 256)) (ra : Reg) :
    encodeM op rd ra = BitVec.ofNat 16 (high * 256 + ra.toBits.toNat * 16) := by
  have hra := ra.toBits_toNat_le
  rw [encodeM_eq_encodeI, encodeI_eq_ofNat hhigh (by omega)]

theorem encode_ldr_eq_ofNat (rd ra : Reg) :
    encode (.ldr rd ra) = BitVec.ofNat 16 (0x4000 + rd.toBits.toNat * 256 + ra.toBits.toNat * 16) := by
  have hsum : 0x4000 + rd.toBits.toNat * 256 = (0x40 + rd.toBits.toNat) * 256 := by omega
  rw [hsum]
  exact encodeM_eq_ofNat (by cases rd <;> rfl) ra

theorem encode_str_eq_ofNat (rd ra : Reg) :
    encode (.str rd ra) = BitVec.ofNat 16 (0x7000 + rd.toBits.toNat * 256 + ra.toBits.toNat * 16) := by
  have hsum : 0x7000 + rd.toBits.toNat * 256 = (0x70 + rd.toBits.toNat) * 256 := by omega
  rw [hsum]
  exact encodeM_eq_ofNat (by cases rd <;> rfl) ra

end Sys2Proof
end

section
/-! LDR as a register write and STR as a memory write, each followed by the increment of `pc`
(41_load_store.md R90, R91). -/

namespace Sys2Proof.Machine

/-- All 16 bits of the register are the address (41_load_store.md R92). -/
@[simp] theorem effectiveAddress_eq_getReg (s : State) (ra : Reg) :
    s.effectiveAddress ra = s.getReg ra := rfl

theorem effect_ldr (rd ra : Reg) (s : State) :
    effect (.ldr rd ra) s = (s.setReg rd (s.memRead (s.getReg ra))).advancePc := rfl

theorem effect_str (rd ra : Reg) (s : State) :
    effect (.str rd ra) s = (s.memWrite (s.getReg ra) (s.getReg rd)).advancePc := rfl

/-- An instruction whose effect is one memory write and the increment of `pc`: it runs, the word at the
address is the stored one and joins the held words there, and no other address, register or flag changes. -/
theorem exec_of_effect_memWrite {i : Instr} {s : State} {a x : Word}
    (h : effect i s = (s.memWrite a x).advancePc) :
    ∃ t, exec i s = .next t ∧ t.memRead a = x ∧ (∀ b, b ≠ a → t.memRead b = s.memRead b) ∧
      (∀ b v, v ∈ t.heldAt b ↔ v ∈ s.heldAt b ∨ (b = a ∧ v = x)) ∧
      RegistersUnchanged s t ∧ t.flags = s.flags ∧ CommonEffect s t := by
  refine ⟨effect i s, exec_eq_effect i s, ?_, ?_, ?_, ?_, ?_, effect_commonEffect i s⟩ <;> rw [h]
  · exact memRead_memWrite_same s a x
  · exact fun b hb => memRead_memWrite_of_ne s x hb
  · exact fun b v => mem_heldAt_memWrite s a b x v
  · exact getReg_memWrite s a x
  · exact memWrite_flags s a x

/-- Settles O3: the word is the encoding of LDR, which decodes to it; the effect of LDR is one register
write, of the word at the address that `ra` held before. -/
theorem ldrLoadsAddressedWord : Obligations.LdrLoadsAddressedWord := by
  intro rd ra s
  rw [← encode_ldr_eq_ofNat rd ra]
  exact ⟨decode_encode_ldr rd ra, exec_of_effect_setReg (effect_ldr rd ra s)⟩

/-- Settles O4: the word is the encoding of STR, which decodes to it; the effect of STR is one memory
write, of `rd` at the effective address of `ra`. -/
theorem strStoresRegister : Obligations.StrStoresRegister := by
  intro rd ra s
  rw [← encode_str_eq_ofNat rd ra, effectiveAddress_eq_getReg]
  exact ⟨decode_encode_str rd ra, rfl, exec_of_effect_memWrite (effect_str rd ra s)⟩

end Sys2Proof.Machine
end

section
/-! The decoder on the word of a format R instruction, AND, ORR, ADD or SUB (30_encoding.md R55, R71): it is
the format I word whose low byte holds the `ra` and `rb` fields. -/

namespace Sys2Proof

theorem extract_ra_regAt_rb (rb : Reg) : (regAt rb 0).extractLsb' 4 3 = 0 := by
  cases rb <;> rfl

theorem extract_rb_regAt_rd (rd : Reg) : (regAt rd 8).extractLsb' 0 3 = 0 := by
  cases rd <;> rfl

theorem extract_rb_regAt_ra (ra : Reg) : (regAt ra 4).extractLsb' 0 3 = 0 := by
  cases ra <;> rfl

theorem extract_rb_regAt_rb (rb : Reg) : (regAt rb 0).extractLsb' 0 3 = rb.toBits := by
  cases rb <;> rfl

/-- The low byte of a format R word as a number: `ra` in bits 6..4, `rb` in bits 2..0. -/
theorem regAt_ra_or_regAt_rb_eq_ofNat (ra rb : Reg) :
    regAt ra 4 ||| regAt rb 0 = BitVec.ofNat 16 (ra.toBits.toNat * 16 + rb.toBits.toNat) := by
  cases ra <;> cases rb <;> rfl

/-- A format R word is a format I word with the `ra` and `rb` fields in the low byte. -/
theorem encodeR_eq_encodeI (op : Word) (rd ra rb : Reg) :
    encodeR op rd ra rb = encodeI op rd (ra.toBits.toNat * 16 + rb.toBits.toNat) := by
  rw [encodeR, BitVec.or_assoc, regAt_ra_or_regAt_rb_eq_ofNat, encodeI]

theorem formatR_lowByte_le (ra rb : Reg) : ra.toBits.toNat * 16 + rb.toBits.toNat ≤ 255 := by
  have hra := ra.toBits_toNat_le
  have hrb := rb.toBits_toNat_le
  omega

/-- The `rd` field of a format R word, whose opcode leaves that field free. -/
theorem rdField_encodeR {op : Word} (hop : op.extractLsb' 8 3 = 0) (rd ra rb : Reg) :
    rdField (encodeR op rd ra rb) = rd := by
  rw [encodeR_eq_encodeI, rdField_encodeI hop rd (formatR_lowByte_le ra rb)]

/-- The `ra` field of a format R word, whose opcode leaves that field free. -/
theorem raField_encodeR {op : Word} (hop : op.extractLsb' 4 3 = 0) (rd ra rb : Reg) :
    raField (encodeR op rd ra rb) = ra := by
  simp [raField, encodeR, BitVec.extractLsb'_or, hop, extract_ra_regAt_rd, extract_ra_regAt_ra,
    extract_ra_regAt_rb, Reg.ofBits_toBits]

/-- The `rb` field of a format R word, whose opcode leaves that field free. -/
theorem rbField_encodeR {op : Word} (hop : op.extractLsb' 0 3 = 0) (rd ra rb : Reg) :
    rbField (encodeR op rd ra rb) = rb := by
  simp [rbField, encodeR, BitVec.extractLsb'_or, hop, extract_rb_regAt_rd, extract_rb_regAt_ra,
    extract_rb_regAt_rb, Reg.ofBits_toBits]

/-- The instruction of a format R row with the fields of its own word. -/
theorem buildInstr_encode_formatR {form : Reg → Reg → Reg → Instr}
    (hform : form ∈ [Instr.and, Instr.orr, Instr.add, Instr.sub]) (rd ra rb : Reg) :
    buildInstr (Laws.EncodedRow.mnemonicOf (form rd ra rb)) (encode (form rd ra rb)) = form rd ra rb := by
  simp only [List.mem_cons, List.not_mem_nil, or_false] at hform
  obtain rfl | rfl | rfl | rfl := hform <;>
    simp [Laws.EncodedRow.mnemonicOf, buildInstr, encode, rdField_encodeR, raField_encodeR,
      rbField_encodeR]

/-- The word of each of the four format R instructions decodes to that instruction. -/
theorem decode_encode_formatR {form : Reg → Reg → Reg → Instr}
    (hform : form ∈ [Instr.and, Instr.orr, Instr.add, Instr.sub]) (rd ra rb : Reg) :
    decode (encode (form rd ra rb)) = .instr (form rd ra rb) := by
  have hfields := buildInstr_encode_formatR hform rd ra rb
  simp only [List.mem_cons, List.not_mem_nil, or_false] at hform
  obtain rfl | rfl | rfl | rfl := hform
  · rw [decode_encode_eq_buildInstr (Laws.EncodedRow.and rd ra rb) rfl, hfields]
  · rw [decode_encode_eq_buildInstr (Laws.EncodedRow.orr rd ra rb) rfl, hfields]
  · rw [decode_encode_eq_buildInstr (Laws.EncodedRow.add rd ra rb) rfl, hfields]
  · rw [decode_encode_eq_buildInstr (Laws.EncodedRow.sub rd ra rb) rfl, hfields]

/-- The high byte of a format R word as a number: the opcode, `cond` = 0 and `rd`. -/
theorem opcode_or_regAt_rd_eq_ofNat (opcode : Nat) (rd : Reg) :
    BitVec.ofNat 16 (opcode * 0x1000) ||| regAt rd 8 =
      BitVec.ofNat 16 ((opcode * 16 + rd.toBits.toNat) * 256) := by
  have hrd := rd.toBits_toNat_le
  have hreg : regAt rd 8 = BitVec.ofNat 16 (rd.toBits.toNat * 256) := by cases rd <;> rfl
  have hor : opcode * 0x1000 ||| rd.toBits.toNat * 256 = opcode * 0x1000 + rd.toBits.toNat * 256 := by
    rw [Nat.mul_comm opcode]
    exact (Nat.two_pow_add_eq_or_of_lt (i := 12) (by omega) opcode).symm
  have hhigh : (opcode * 16 + rd.toBits.toNat) * 256 = opcode * 0x1000 + rd.toBits.toNat * 256 := by
    omega
  rw [hreg, ← BitVec.ofNat_or, hor, hhigh]

/-- The format R word is the sum of its parts. -/
theorem encodeR_eq_ofNat (opcode : Nat) (rd ra rb : Reg) :
    encodeR (BitVec.ofNat 16 (opcode * 0x1000)) rd ra rb =
      BitVec.ofNat 16
        (opcode * 0x1000 + rd.toBits.toNat * 256 + ra.toBits.toNat * 16 + rb.toBits.toNat) := by
  have hsum : opcode * 0x1000 + rd.toBits.toNat * 256 + ra.toBits.toNat * 16 + rb.toBits.toNat =
      (opcode * 16 + rd.toBits.toNat) * 256 + (ra.toBits.toNat * 16 + rb.toBits.toNat) := by
    omega
  rw [encodeR_eq_encodeI, hsum]
  exact encodeI_eq_ofNat (opcode_or_regAt_rd_eq_ofNat opcode rd) (formatR_lowByte_le ra rb)

theorem encode_and_eq_ofNat (rd ra rb : Reg) :
    encode (.and rd ra rb) =
      BitVec.ofNat 16 (0x8000 + rd.toBits.toNat * 256 + ra.toBits.toNat * 16 + rb.toBits.toNat) :=
  encodeR_eq_ofNat 8 rd ra rb

theorem encode_orr_eq_ofNat (rd ra rb : Reg) :
    encode (.orr rd ra rb) =
      BitVec.ofNat 16 (0x9000 + rd.toBits.toNat * 256 + ra.toBits.toNat * 16 + rb.toBits.toNat) :=
  encodeR_eq_ofNat 9 rd ra rb

theorem encode_add_eq_ofNat (rd ra rb : Reg) :
    encode (.add rd ra rb) =
      BitVec.ofNat 16 (0xA000 + rd.toBits.toNat * 256 + ra.toBits.toNat * 16 + rb.toBits.toNat) :=
  encodeR_eq_ofNat 10 rd ra rb

theorem encode_sub_eq_ofNat (rd ra rb : Reg) :
    encode (.sub rd ra rb) =
      BitVec.ofNat 16 (0xB000 + rd.toBits.toNat * 256 + ra.toBits.toNat * 16 + rb.toBits.toNat) :=
  encodeR_eq_ofNat 11 rd ra rb

end Sys2Proof
end

section
/-! The results and flags of AND, ORR, ADD and SUB as bits and numbers (42_alu.md R100 to R103,
00_scope.md R8). -/

namespace Sys2Proof.Machine

/-- Bit 15 is the sign in two's complement (00_scope.md R8). -/
theorem getLsbD_fifteen_eq_decide_neg (r : Word) : r.getLsbD 15 = decide (r.toInt < 0) := by
  rw [← BitVec.msb_eq_toInt, BitVec.msb_eq_getLsbD_last]

theorem flagN_eq_decide (r : Word) : flagN r = decide (r.toInt < 0) := getLsbD_fifteen_eq_decide_neg r

theorem flagZ_eq_decide (r : Word) : flagZ r = decide (r.toNat = 0) :=
  decide_eq_decide.mpr BitVec.toNat_eq

/-- The flags of AND and ORR: N and Z of the result, C and V clear. -/
theorem logicResult_flags (r : Word) :
    (logicResult r).flags =
      { c := false, v := false, n := decide (r.toInt < 0), z := decide (r.toNat = 0) } := by
  rw [logicResult, flagN_eq_decide, flagZ_eq_decide]

/-- Bit 16 of a 17-bit sum is its carry out of the 16-bit word. -/
theorem getLsbD_sixteen_eq_decide_carry (x : BitVec 17) :
    x.getLsbD 16 = decide (65536 ≤ x.toNat) := by
  rw [← BitVec.msb_eq_getLsbD_last x, BitVec.msb_eq_decide]

theorem toNat_lowWord (x : BitVec 17) : (x.extractLsb' 0 16).toNat = x.toNat % 65536 := by
  simp

/-- The 17 bits hold the whole sum of ADD. -/
theorem toNat_sum17 (a b : Word) : (sum17 a b).toNat = a.toNat + b.toNat := by
  simp only [sum17, BitVec.toNat_add, BitVec.toNat_setWidth]
  omega

/-- The 17 bits hold the whole sum of SUB. -/
theorem toNat_diff17 (a b : Word) : (diff17 a b).toNat = a.toNat + (65535 - b.toNat) + 1 := by
  have hone : (1 : BitVec 17).toNat = 1 := rfl
  simp only [diff17, BitVec.toNat_add, BitVec.toNat_setWidth, BitVec.toNat_not, hone]
  omega

theorem addOverflow_eq_decide (a b r : Word) :
    addOverflow a b r = decide ((a.toInt < 0 ↔ b.toInt < 0) ∧ ¬(r.toInt < 0 ↔ a.toInt < 0)) := by
  simp only [addOverflow, getLsbD_fifteen_eq_decide_neg, decide_eq_decide, ne_eq, Bool.decide_and]

theorem subOverflow_eq_decide (a b r : Word) :
    subOverflow a b r = decide (¬(a.toInt < 0 ↔ b.toInt < 0) ∧ (r.toInt < 0 ↔ b.toInt < 0)) := by
  simp only [subOverflow, getLsbD_fifteen_eq_decide_neg, decide_eq_decide, ne_eq, Bool.decide_and]

theorem addResult_value_toNat (a b : Word) :
    (addResult a b).value.toNat = (a.toNat + b.toNat) % 65536 := by
  rw [← toNat_sum17, ← toNat_lowWord, addResult]

/-- The flag table of ADD (42_alu.md R102). -/
theorem addResult_flags (a b : Word) :
    (addResult a b).flags =
      { c := decide (65536 ≤ a.toNat + b.toNat)
        v := decide ((a.toInt < 0 ↔ b.toInt < 0) ∧
               ¬((addResult a b).value.toInt < 0 ↔ a.toInt < 0))
        n := decide ((addResult a b).value.toInt < 0)
        z := decide ((addResult a b).value.toNat = 0) } := by
  rw [← toNat_sum17, ← getLsbD_sixteen_eq_decide_carry, ← addOverflow_eq_decide, ← flagN_eq_decide,
    ← flagZ_eq_decide, addResult]

theorem subResult_value_toNat (a b : Word) :
    (subResult a b).value.toNat = (a.toNat + (65535 - b.toNat) + 1) % 65536 := by
  rw [← toNat_diff17, ← toNat_lowWord, subResult]

/-- The flag table of SUB (42_alu.md R103). -/
theorem subResult_flags (a b : Word) :
    (subResult a b).flags =
      { c := decide (65536 ≤ a.toNat + (65535 - b.toNat) + 1)
        v := decide (¬(a.toInt < 0 ↔ b.toInt < 0) ∧
               ((subResult a b).value.toInt < 0 ↔ b.toInt < 0))
        n := decide ((subResult a b).value.toInt < 0)
        z := decide ((subResult a b).value.toNat = 0) } := by
  rw [← toNat_diff17, ← getLsbD_sixteen_eq_decide_carry, ← subOverflow_eq_decide, ← flagN_eq_decide,
    ← flagZ_eq_decide, subResult]

end Sys2Proof.Machine
end

section
/-! AND, ORR, ADD and SUB as instructions: one register written, the flags, and nothing else but `pc`
(42_alu.md R100 to R104). -/

namespace Sys2Proof.Machine

theorem onlyRegisterWritten_aluOp (s : State) (op : Word → Word → AluResult) (rd ra rb : Reg) :
    OnlyRegisterWritten s (s.aluOp op rd ra rb) rd (op (s.getReg ra) (s.getReg rb)).value :=
  fun q => getReg_setReg s rd q _

theorem memoryUnchanged_aluOp (s : State) (op : Word → Word → AluResult) (rd ra rb : Reg) :
    MemoryUnchanged s (s.aluOp op rd ra rb) :=
  memoryUnchanged_setReg_advancePc s rd (op (s.getReg ra) (s.getReg rb)).value

/-- An instruction whose effect is an ALU operation: it runs, writes the result to `rd` and the flags of the
result, and changes nothing else but `pc`. -/
theorem exec_of_effect_aluOp {i : Instr} {s : State} {op : Word → Word → AluResult} {rd ra rb : Reg}
    (h : effect i s = s.aluOp op rd ra rb) :
    ∃ t, exec i s = .next t ∧
      OnlyRegisterWritten s t rd (op (s.getReg ra) (s.getReg rb)).value ∧
      t.flags = (op (s.getReg ra) (s.getReg rb)).flags ∧ MemoryUnchanged s t ∧ CommonEffect s t := by
  refine ⟨effect i s, exec_eq_effect i s, ?_, ?_, ?_, effect_commonEffect i s⟩ <;> rw [h]
  · exact onlyRegisterWritten_aluOp s op rd ra rb
  · exact aluOp_flags s op rd ra rb
  · exact memoryUnchanged_aluOp s op rd ra rb

/-- Settles O5: the word is the encoding of AND, which decodes to it; its effect is the ALU operation of the
bitwise and. -/
theorem andWritesResultAndFlags : Obligations.AndWritesResultAndFlags := by
  intro rd ra rb s
  rw [← encode_and_eq_ofNat rd ra rb]
  obtain ⟨t, hexec, hreg, hflags, hmem, hcommon⟩ :=
    exec_of_effect_aluOp (i := .and rd ra rb) (s := s) (op := andResult) rfl
  exact ⟨decode_encode_formatR (by simp) rd ra rb, t, _, hexec, fun _ => BitVec.getLsbD_and, hreg,
    hflags.trans (logicResult_flags _), hmem, hcommon⟩

/-- Settles O6: the word is the encoding of ORR, which decodes to it; its effect is the ALU operation of the
bitwise or. -/
theorem orrWritesResultAndFlags : Obligations.OrrWritesResultAndFlags := by
  intro rd ra rb s
  rw [← encode_orr_eq_ofNat rd ra rb]
  obtain ⟨t, hexec, hreg, hflags, hmem, hcommon⟩ :=
    exec_of_effect_aluOp (i := .orr rd ra rb) (s := s) (op := orrResult) rfl
  exact ⟨decode_encode_formatR (by simp) rd ra rb, t, _, hexec, fun _ => BitVec.getLsbD_or, hreg,
    hflags.trans (logicResult_flags _), hmem, hcommon⟩

/-- Settles O7: the word is the encoding of ADD, which decodes to it; its effect is the ALU operation whose
17-bit sum is exact. -/
theorem addWritesSumAndFlags : Obligations.AddWritesSumAndFlags := by
  intro rd ra rb s
  rw [← encode_add_eq_ofNat rd ra rb]
  obtain ⟨t, hexec, hreg, hflags, hmem, hcommon⟩ :=
    exec_of_effect_aluOp (i := .add rd ra rb) (s := s) (op := addResult) rfl
  exact ⟨decode_encode_formatR (by simp) rd ra rb, t, _, hexec, addResult_value_toNat _ _, hreg,
    hflags.trans (addResult_flags _ _), hmem, hcommon⟩

/-- Settles O8: the word is the encoding of SUB, which decodes to it; its effect is the ALU operation whose
17-bit sum `ra + ~rb + 1` is exact. -/
theorem subWritesDifferenceAndFlags : Obligations.SubWritesDifferenceAndFlags := by
  intro rd ra rb s
  rw [← encode_sub_eq_ofNat rd ra rb]
  obtain ⟨t, hexec, hreg, hflags, hmem, hcommon⟩ :=
    exec_of_effect_aluOp (i := .sub rd ra rb) (s := s) (op := subResult) rfl
  exact ⟨decode_encode_formatR (by simp) rd ra rb, t, _, hexec, subResult_value_toNat _ _, hreg,
    hflags.trans (subResult_flags _ _), hmem, hcommon⟩

/-- Each of the four forms is the ALU operation of one result function, whose N and Z are those of the value
it computes. -/
theorem exists_aluOp_of_form {form : Reg → Reg → Reg → Instr}
    (hform : form ∈ [Instr.and, Instr.orr, Instr.add, Instr.sub]) :
    ∃ op : Word → Word → AluResult,
      (∀ rd ra rb s, exec (form rd ra rb) s = .next (s.aluOp op rd ra rb)) ∧
      ∀ a b, (op a b).flags.n = flagN (op a b).value ∧ (op a b).flags.z = flagZ (op a b).value := by
  simp only [List.mem_cons, List.not_mem_nil, or_false] at hform
  obtain rfl | rfl | rfl | rfl := hform
  · exact ⟨andResult, exec_eq_aluOp (p := (.and, andResult)) (by simp), fun _ _ => ⟨rfl, rfl⟩⟩
  · exact ⟨orrResult, exec_eq_aluOp (p := (.orr, orrResult)) (by simp), fun _ _ => ⟨rfl, rfl⟩⟩
  · exact ⟨addResult, exec_eq_aluOp (p := (.add, addResult)) (by simp), fun _ _ => ⟨rfl, rfl⟩⟩
  · exact ⟨subResult, exec_eq_aluOp (p := (.sub, subResult)) (by simp), fun _ _ => ⟨rfl, rfl⟩⟩

/-- With `rz` as destination an ALU operation changes no register (10_state.md R11). -/
theorem registersUnchanged_aluOp_rz (s : State) (op : Word → Word → AluResult) (ra rb : Reg) :
    RegistersUnchanged s (s.aluOp op rzIndex ra rb) := fun q =>
  (onlyRegisterWritten_aluOp s op rzIndex ra rb q).trans (if_neg fun h => h.2 h.1)

/-- A destination other than `rz` reads the result. -/
theorem getReg_aluOp_self (s : State) (op : Word → Word → AluResult) {rd : Reg} (hrd : rd ≠ rzIndex)
    (ra rb : Reg) : (s.aluOp op rd ra rb).getReg rd = (op (s.getReg ra) (s.getReg rb)).value :=
  (onlyRegisterWritten_aluOp s op rd ra rb rd).trans (if_pos ⟨rfl, hrd⟩)

/-- Settles O9: both next states have the flags of the one result, and a destination other than `rz` reads
that result back. -/
theorem flagsDoNotDependOnDestination : Obligations.FlagsDoNotDependOnDestination := by
  intro ra rb rd s form hform
  obtain ⟨op, hexec, hflags⟩ := exists_aluOp_of_form hform
  refine ⟨_, _, hexec rzIndex ra rb s, hexec rd ra rb s, ?_, registersUnchanged_aluOp_rz s op ra rb,
    fun hrd => ?_⟩
  · rw [aluOp_flags, aluOp_flags]
  · obtain ⟨hn, hz⟩ := hflags (s.getReg ra) (s.getReg rb)
    rw [getReg_aluOp_self s op hrd, aluOp_flags, hn, hz, flagN_eq_decide]
    exact ⟨rfl, rfl⟩

end Sys2Proof.Machine
end

section
/-! The decoder and the encoder as inverses of each other (30_encoding.md R57 to R62, R71): the decoder's
three tests one by one, and the fields of a word put together again. -/

namespace Sys2Proof

theorem immInRange_iff (imm8 : Nat) : immInRange imm8 = true ↔ imm8 ≤ 255 := decide_eq_true_iff

/-- Settles O31, form by form: the word of each instruction decodes to it. -/
theorem decodeOfEncodeIsInstruction : Obligations.DecodeOfEncodeIsInstruction := by
  intro i hwf
  cases i with
  | movl rd imm8 => exact decode_encode_movl rd ((immInRange_iff imm8).mp hwf)
  | seth rd imm8 => exact decode_encode_seth rd ((immInRange_iff imm8).mp hwf)
  | ldr rd ra => exact decode_encode_ldr rd ra
  | str rd ra => exact decode_encode_str rd ra
  | and rd ra rb => exact decode_encode_formatR (by simp) rd ra rb
  | orr rd ra rb => exact decode_encode_formatR (by simp) rd ra rb
  | add rd ra rb => exact decode_encode_formatR (by simp) rd ra rb
  | sub rd ra rb => exact decode_encode_formatR (by simp) rd ra rb

/-- The three tests of the decoder in their order (30_encoding.md R62): the word is in no row; it is in a row
without the row's fixed bits; or the field `cond` decides. -/
theorem decode_cases (w : Word) :
    (opcodeRow w = none ∧ decode w = .refused .unknownOpcode) ∨
    ∃ row, opcodeRow w = some row ∧
      ((w &&& row.mask ≠ row.pattern ∧ decode w = .refused .reservedBits) ∨
       (w &&& row.mask = row.pattern ∧
        ((condField w = true ∧ decode w = .refused .cond1) ∨
         (condField w = false ∧ decode w = .instr (buildInstr row.mnemonic w))))) := by
  cases hrow : opcodeRow w with
  | none => exact .inl ⟨rfl, by simp [decode, hrow]⟩
  | some row =>
    refine .inr ⟨row, rfl, ?_⟩
    by_cases hfix : w &&& row.mask = row.pattern
    · cases hcond : condField w <;> simp [decode, hrow, hfix, hcond]
    · simp [decode, hrow, hfix]

/-- What a word that decodes looks like: it has the fixed bits of a row and `cond` = 0. -/
theorem decode_instr_cases {w : Word} {i : Instr} (h : decode w = .instr i) :
    ∃ row ∈ opcodeTable, w &&& row.mask = row.pattern ∧ condField w = false ∧
      i = buildInstr row.mnemonic w := by
  obtain ⟨-, hd⟩ | ⟨row, hrow, ⟨-, hd⟩ | ⟨hfix, ⟨-, hd⟩ | ⟨hcond, hd⟩⟩⟩ := decode_cases w
  · cases hd.symm.trans h
  · cases hd.symm.trans h
  · cases hd.symm.trans h
  · exact ⟨row, List.mem_of_find?_eq_some hrow, hfix, hcond, Decoded.instr.inj (h.symm.trans hd)⟩

/-- A 3-bit field put back in its place is the word at the bits of the field. -/
theorem regAt_ofBits_extract (w : Word) (position : Nat) :
    regAt (Reg.ofBits (w.extractLsb' position 3)) position = w &&& (7#16 <<< position) := by
  have seven_bits : ∀ k, (7#16).getLsbD k = decide (k < 3) := fun k => by
    have hseven : (7#16) = (BitVec.allOnes 3).setWidth 16 := rfl
    rw [hseven, BitVec.getLsbD_setWidth, BitVec.getLsbD_allOnes, ← Bool.decide_and, decide_eq_decide]
    omega
  apply BitVec.eq_of_getLsbD_eq
  intro k hk
  simp only [regAt, Reg.toBits_ofBits, BitVec.getLsbD_shiftLeft, BitVec.getLsbD_setWidth,
    BitVec.getLsbD_extractLsb', BitVec.getLsbD_and, seven_bits]
  by_cases hlow : k < position
  · simp [hlow]
  · have hbit : position + (k - position) = k := by omega
    have hsub : k - position < 16 := by omega
    simp [hlow, hk, hbit, hsub, Bool.and_comm]

theorem regAt_rdField (w : Word) : regAt (rdField w) 8 = w &&& 0x0700 := regAt_ofBits_extract w 8

theorem regAt_raField (w : Word) : regAt (raField w) 4 = w &&& 0x0070 := regAt_ofBits_extract w 4

theorem regAt_rbField (w : Word) : regAt (rbField w) 0 = w &&& 0x0007 := regAt_ofBits_extract w 0

theorem immField_eq_mod (w : Word) : immField w = w.toNat % 256 := by
  simp [immField]

theorem immField_le (w : Word) : immField w ≤ 255 := by
  rw [immField_eq_mod]
  omega

theorem ofNat_immField (w : Word) : BitVec.ofNat 16 (immField w) = w &&& 0x00FF := by
  rw [immField_eq_mod, Machine.and_lowByte_eq_ofNat]

/-- With `cond` = 0 the other 15 bits are the whole word. -/
theorem and_not_cond {w : Word} (hcond : condField w = false) : w &&& 0xF7FF = w := by
  have other_bits : ∀ k < 16, k ≠ 11 → (0xF7FF#16).getLsbD k = true := by decide
  apply BitVec.eq_of_getLsbD_eq
  intro k hk
  rw [BitVec.getLsbD_and]
  by_cases hk11 : k = 11
  · subst hk11
    rw [show w.getLsbD 11 = false from hcond, Bool.false_and]
  · simp [other_bits k hk hk11]

/-- The fields of a format I word make up the word. -/
theorem encodeI_fields {w op : Word} (hfix : w &&& 0xF000 = op) (hcond : condField w = false) :
    encodeI op (rdField w) (immField w) = w := by
  rw [encodeI, ← hfix, regAt_rdField, ofNat_immField, ← BitVec.and_or_distrib_left,
    ← BitVec.and_or_distrib_left]
  exact and_not_cond hcond

/-- The fields of a format M word make up the word. -/
theorem encodeM_fields {w op : Word} (hfix : w &&& 0xF08F = op) (hcond : condField w = false) :
    encodeM op (rdField w) (raField w) = w := by
  rw [encodeM, ← hfix, regAt_rdField, regAt_raField, ← BitVec.and_or_distrib_left,
    ← BitVec.and_or_distrib_left]
  exact and_not_cond hcond

/-- The fields of a format R word make up the word. -/
theorem encodeR_fields {w op : Word} (hfix : w &&& 0xF088 = op) (hcond : condField w = false) :
    encodeR op (rdField w) (raField w) (rbField w) = w := by
  rw [encodeR, ← hfix, regAt_rdField, regAt_raField, regAt_rbField, ← BitVec.and_or_distrib_left,
    ← BitVec.and_or_distrib_left, ← BitVec.and_or_distrib_left]
  exact and_not_cond hcond

/-- The instruction of a row is well formed whatever the word. -/
theorem buildInstr_wellFormed (m : Mnemonic) (w : Word) : (buildInstr m w).wellFormed = true := by
  cases m with
  | MOVL => exact (immInRange_iff _).mpr (immField_le w)
  | SETH => exact (immInRange_iff _).mpr (immField_le w)
  | LDR | STR | AND | ORR | ADD | SUB => rfl

/-- The instruction of a row has the word it was read from, row by row by the row's format. -/
theorem encode_buildInstr {row : OpcodeRow} (hrow : row ∈ opcodeTable) {w : Word}
    (hfix : w &&& row.mask = row.pattern) (hcond : condField w = false) :
    encode (buildInstr row.mnemonic w) = w := by
  simp only [opcodeTable, List.mem_cons, List.not_mem_nil, or_false] at hrow
  obtain rfl | rfl | rfl | rfl | rfl | rfl | rfl | rfl := hrow
  · exact encodeI_fields hfix hcond
  · exact encodeI_fields hfix hcond
  · exact encodeM_fields hfix hcond
  · exact encodeM_fields hfix hcond
  · exact encodeR_fields hfix hcond
  · exact encodeR_fields hfix hcond
  · exact encodeR_fields hfix hcond
  · exact encodeR_fields hfix hcond

/-- Settles O32: a word that decodes is that of a row's instruction, whose fields give the word back. -/
theorem encodeOfDecodeIsWord : Obligations.EncodeOfDecodeIsWord := by
  intro w i h
  obtain ⟨row, hrow, hfix, hcond, rfl⟩ := decode_instr_cases h
  exact ⟨buildInstr_wellFormed row.mnemonic w, encode_buildInstr hrow hfix hcond⟩

/-- Settles O33, by running the decoder on each word. -/
theorem wordsOfTheSpecDecode : Obligations.WordsOfTheSpecDecode := by
  unfold Obligations.WordsOfTheSpecDecode
  decide

end Sys2Proof
end

section
/-! Which words the decoder refuses, field by field (30_encoding.md R59 to R61). -/

namespace Sys2Proof

theorem opField_toNat (w : Word) : (opField w).toNat = w.toNat / 4096 := by
  simp only [opField, BitVec.extractLsb'_toNat, Nat.shiftRight_eq_div_pow]
  omega

theorem toNat_and_low12 (w : Word) : (w &&& 0x0FFF).toNat = w.toNat % 4096 := by
  rw [BitVec.toNat_and]
  exact Nat.and_two_pow_sub_one_eq_mod w.toNat 12

/-- A word is its opcode and its other 12 bits. -/
theorem word_eq_iff (v w : Word) : v = w ↔ opField v = opField w ∧ v &&& 0x0FFF = w &&& 0x0FFF := by
  simp only [BitVec.toNat_eq, opField_toNat, toNat_and_low12]
  omega

/-- The row of a word is the one with its opcode. -/
theorem opcodeRow_eq_some_iff (w : Word) (row : OpcodeRow) :
    opcodeRow w = some row ↔ row ∈ opcodeTable ∧ opField w = opField row.pattern := by
  constructor
  · intro h
    have hop := List.find?_some h
    exact ⟨List.mem_of_find?_eq_some h, (of_decide_eq_true hop).symm⟩
  · rintro ⟨hrow, hop⟩
    rw [opcodeRow_congr hop, opcodeRow_pattern row hrow]

/-- The opcodes in no row. -/
theorem opcodeRow_eq_none_iff (w : Word) :
    opcodeRow w = none ↔
      w.toNat / 4096 ∈ [0b0001, 0b0011, 0b0101, 0b0110, 0b1100, 0b1101, 0b1110, 0b1111] := by
  have unlisted : ∀ op : BitVec 4,
      (opcodeTable.find? fun r => decide (opField r.pattern = op)) = none ↔
        op.toNat ∈ [0b0001, 0b0011, 0b0101, 0b0110, 0b1100, 0b1101, 0b1110, 0b1111] := by decide
  rw [← opField_toNat]
  exact unlisted (opField w)

theorem opcodeTable_pattern_low12 : ∀ row ∈ opcodeTable, row.pattern &&& 0x0FFF = 0#16 := by
  decide

/-- Of a word with the opcode of a row, the fixed bits are right when those below the opcode are 0. -/
theorem fixed_iff_low12 {row : OpcodeRow} (hrow : row ∈ opcodeTable) {w : Word}
    (hop : opField w = opField row.pattern) :
    w &&& row.mask = row.pattern ↔ w &&& (row.mask &&& 0x0FFF) = 0#16 := by
  rw [word_eq_iff, opField_and, opcodeTable_opField_mask row hrow, BitVec.and_allOnes,
    opcodeTable_pattern_low12 row hrow, BitVec.and_assoc]
  exact and_iff_right hop

theorem and_bit_eq_zero_iff (w : Word) {k : Nat} (hk : k < 16) :
    w &&& BitVec.twoPow 16 k = 0#16 ↔ w.getLsbD k = false := by
  have hne : BitVec.twoPow 16 k ≠ 0#16 := fun h => by
    have := congrArg (BitVec.getLsbD · k) h
    simp [hk] at this
  rw [BitVec.and_twoPow]
  cases w.getLsbD k <;> simp_all

/-- The fixed bits of format M below the opcode: bit 7 and bits 3..0. -/
theorem formatM_fixed_iff (w : Word) :
    w &&& 0x008F = 0#16 ↔ ¬(w.getLsbD 7 = true ∨ w.toNat % 16 ≠ 0) := by
  have hlow : w &&& 0x000F = 0#16 ↔ w.toNat % 16 = 0 := by
    rw [BitVec.toNat_eq, BitVec.toNat_and]
    exact (Nat.and_two_pow_sub_one_eq_mod w.toNat 4).congr_left
  have hmask : (0x008F : Word) = BitVec.twoPow 16 7 ||| 0x000F := rfl
  rw [hmask, BitVec.and_or_distrib_left, BitVec.or_eq_zero_iff, and_bit_eq_zero_iff w (by omega),
    hlow]
  simp

/-- The fixed bits of format R below the opcode: bits 7 and 3. -/
theorem formatR_fixed_iff (w : Word) :
    w &&& 0x0088 = 0#16 ↔ ¬(w.getLsbD 7 = true ∨ w.getLsbD 3 = true) := by
  have hmask : (0x0088 : Word) = BitVec.twoPow 16 7 ||| BitVec.twoPow 16 3 := rfl
  rw [hmask, BitVec.and_or_distrib_left, BitVec.or_eq_zero_iff, and_bit_eq_zero_iff w (by omega),
    and_bit_eq_zero_iff w (by omega)]
  simp

theorem decode_eq_unknownOpcode_iff (w : Word) :
    decode w = .refused .unknownOpcode ↔ opcodeRow w = none := by
  obtain ⟨hrow, hd⟩ | ⟨row, hrow, ⟨-, hd⟩ | ⟨-, ⟨-, hd⟩ | ⟨-, hd⟩⟩⟩ := decode_cases w
  · simp [hrow, hd]
  · simp [hrow, hd]
  · simp [hrow, hd]
  · simp [hrow, hd]

theorem decode_eq_reservedBits_iff (w : Word) :
    decode w = .refused .reservedBits ↔
      ∃ row, opcodeRow w = some row ∧ w &&& row.mask ≠ row.pattern := by
  obtain ⟨hrow, hd⟩ | ⟨row, hrow, ⟨hfix, hd⟩ | ⟨hfix, ⟨-, hd⟩ | ⟨-, hd⟩⟩⟩ := decode_cases w
  · simp [hrow, hd]
  · simp [hrow, hd, hfix]
  · simp [hrow, hd, hfix]
  · simp [hrow, hd, hfix]

/-- A word in a row with a fixed bit set: of format M or of format R, since format I fixes no bit below the
opcode. -/
theorem reservedBits_iff (w : Word) :
    (∃ row, opcodeRow w = some row ∧ w &&& row.mask ≠ row.pattern) ↔
      (w.toNat / 4096 ∈ [0b0100, 0b0111] ∧ (w.getLsbD 7 = true ∨ w.toNat % 16 ≠ 0)) ∨
      (w.toNat / 4096 ∈ [0b1000, 0b1001, 0b1010, 0b1011] ∧
        (w.getLsbD 7 = true ∨ w.getLsbD 3 = true)) := by
  have hrow : ∀ row, (opcodeRow w = some row ∧ w &&& row.mask ≠ row.pattern) ↔
      row ∈ opcodeTable ∧ w.toNat / 4096 = (opField row.pattern).toNat ∧
        ¬w &&& (row.mask &&& 0x0FFF) = 0#16 := by
    intro row
    rw [opcodeRow_eq_some_iff, ← opField_toNat, BitVec.toNat_inj, and_assoc]
    exact and_congr_right fun hrow => and_congr_right fun hop => not_congr (fixed_iff_low12 hrow hop)
  have formatI_mask : (0xF000 : Word) &&& 0x0FFF = 0#16 := rfl
  have formatM_mask : (0xF08F : Word) &&& 0x0FFF = 0x008F := rfl
  have formatR_mask : (0xF088 : Word) &&& 0x0FFF = 0x0088 := rfl
  simp only [hrow, opcodeTable, List.mem_cons, List.not_mem_nil, or_false, or_and_right, exists_or,
    exists_eq_left, formatI_mask, formatM_mask, formatR_mask, formatM_fixed_iff, formatR_fixed_iff,
    BitVec.and_zero, not_true_eq_false, and_false, false_or, not_not, or_assoc]
  exact Iff.rfl

/-- A word with `cond` = 1 that passes the two tests before it. -/
theorem decode_eq_cond1_iff (w : Word) :
    decode w = .refused .cond1 ↔
      w.getLsbD 11 = true ∧ decode w ≠ .refused .unknownOpcode ∧
        decode w ≠ .refused .reservedBits := by
  change _ ↔ condField w = true ∧ _
  obtain ⟨hrow, hd⟩ | ⟨row, hrow, ⟨hfix, hd⟩ | ⟨hfix, ⟨hcond, hd⟩ | ⟨hcond, hd⟩⟩⟩ := decode_cases w
  · simp [hd]
  · simp [hd]
  · simp [hd, hcond]
  · simp [hd, hcond]

/-- Settles O30: each reason is one outcome of the decoder's three tests, and `cond` = 1 never decodes. -/
theorem refusedWordsByReason : Obligations.RefusedWordsByReason := by
  intro w
  refine ⟨(decode_eq_unknownOpcode_iff w).trans (opcodeRow_eq_none_iff w),
    (decode_eq_reservedBits_iff w).trans (reservedBits_iff w), decode_eq_cond1_iff w, fun hbit => ?_⟩
  cases hd : decode w with
  | refused reason => exact ⟨reason, rfl⟩
  | instr i =>
    obtain ⟨-, -, -, hcond, -⟩ := decode_instr_cases hd
    exact absurd (hcond.symm.trans hbit) Bool.false_ne_true

end Sys2Proof
end

section
/-! Integer arithmetic of ADD and SUB (42_alu.md, "Integer arithmetic laws"). -/

namespace Sys2Proof.Machine

theorem addResult_value (a b : Word) : (addResult a b).value = a + b := by
  rw [BitVec.toNat_eq, addResult_value_toNat, BitVec.toNat_add]

theorem subResult_value (a b : Word) : (subResult a b).value = a - b := by
  have hb := b.isLt
  rw [BitVec.toNat_eq, subResult_value_toNat, BitVec.toNat_sub]
  omega

theorem addResult_flags_c (a b : Word) :
    (addResult a b).flags.c = decide (65536 ≤ a.toNat + b.toNat) := by
  rw [addResult_flags]

/-- C of SUB is the absence of a borrow. -/
theorem subResult_flags_c (a b : Word) : (subResult a b).flags.c = decide (b.toNat ≤ a.toNat) := by
  have ha := a.isLt
  have hb := b.isLt
  rw [subResult_flags, decide_eq_decide]
  omega

/-- The signed reading of a word from the unsigned one (00_scope.md R8). -/
theorem toInt_cases (r : Word) :
    (r.toNat < 32768 ∧ r.toInt = r.toNat) ∨
      (32768 ≤ r.toNat ∧ r.toNat < 65536 ∧ r.toInt = r.toNat - 65536) := by
  have hr := r.isLt
  rw [BitVec.toInt_eq_toNat_cond]
  omega

/-- V of ADD says that the signed sum is out of range. -/
theorem addResult_flags_v (a b : Word) :
    (addResult a b).flags.v =
      decide (¬(-32768 ≤ a.toInt + b.toInt ∧ a.toInt + b.toInt ≤ 32767)) := by
  have hr := addResult_value_toNat a b
  have ha := toInt_cases a
  have hb := toInt_cases b
  have hs := toInt_cases (addResult a b).value
  rw [addResult_flags, decide_eq_decide]
  omega

/-- V of SUB says that the signed difference is out of range. -/
theorem subResult_flags_v (a b : Word) :
    (subResult a b).flags.v =
      decide (¬(-32768 ≤ a.toInt - b.toInt ∧ a.toInt - b.toInt ≤ 32767)) := by
  have hr := subResult_value_toNat a b
  have ha := toInt_cases a
  have hb := toInt_cases b
  have hs := toInt_cases (subResult a b).value
  rw [subResult_flags, decide_eq_decide]
  omega

/-- SUB's rule for V is ADD's rule on the complemented second operand. -/
theorem subOverflow_eq_addOverflow_not (a b r : Word) :
    subOverflow a b r = addOverflow a (~~~b) r := by
  have hnot : (~~~b).getLsbD 15 = !b.getLsbD 15 := by simp
  rw [subOverflow, addOverflow, hnot]
  cases a.getLsbD 15 <;> cases b.getLsbD 15 <;> cases r.getLsbD 15 <;> rfl

/-- No word is both negative and zero. -/
theorem not_flagN_and_flagZ (r : Word) : ¬(flagN r = true ∧ flagZ r = true) := by
  rintro ⟨hn, hz⟩
  rw [of_decide_eq_true hz] at hn
  exact absurd hn (by decide)

/-- SUB of equal operands: the result is 0 without a borrow. -/
theorem subResult_self_flags (a : Word) :
    (subResult a a).flags.z = true ∧ (subResult a a).flags.c = true := by
  have hz : (subResult a a).flags.z = flagZ (subResult a a).value := rfl
  rw [hz, subResult_value, BitVec.sub_self, subResult_flags_c]
  exact ⟨rfl, decide_eq_true le_rfl⟩

/-- Settles O11: C and V are the exact conditions, and N and Z are of one result. -/
theorem carryAndOverflowAreExact : Obligations.CarryAndOverflowAreExact := fun a b =>
  ⟨addResult_flags_c a b, addResult_flags_v a b, subResult_flags_c a b, subResult_flags_v a b,
    subOverflow_eq_addOverflow_not a b _, subResult_self_flags a, by decide,
    not_flagN_and_flagZ (addResult a b).value, not_flagN_and_flagZ (subResult a b).value⟩

theorem addResult_toInt_iff (a b : Word) :
    (addResult a b).value.toInt = a.toInt + b.toInt ↔ (addResult a b).flags.v = false := by
  have hr := addResult_value_toNat a b
  have ha := toInt_cases a
  have hb := toInt_cases b
  have hs := toInt_cases (addResult a b).value
  rw [addResult_flags_v, decide_eq_false_iff_not]
  omega

theorem subResult_toInt_iff (a b : Word) :
    (subResult a b).value.toInt = a.toInt - b.toInt ↔ (subResult a b).flags.v = false := by
  have hr := subResult_value_toNat a b
  have ha := toInt_cases a
  have hb := toInt_cases b
  have hs := toInt_cases (subResult a b).value
  rw [subResult_flags_v, decide_eq_false_iff_not]
  omega

theorem addResult_toNat_iff (a b : Word) :
    (addResult a b).value.toNat = a.toNat + b.toNat ↔ (addResult a b).flags.c = false := by
  rw [addResult_flags_c, decide_eq_false_iff_not, addResult_value_toNat]
  omega

theorem subResult_toNat_iff (a b : Word) :
    ((subResult a b).value.toNat : Int) = (a.toNat : Int) - b.toNat ↔
      (subResult a b).flags.c = true := by
  have ha := a.isLt
  have hb := b.isLt
  rw [subResult_flags_c, decide_eq_true_iff, subResult_value_toNat]
  omega

/-- The difference modulo 65536 as an integer. -/
theorem subResult_value_emod (a b : Word) :
    ((subResult a b).value.toNat : Int) = ((a.toNat : Int) - b.toNat) % 65536 := by
  have hb := b.isLt
  rw [subResult_value_toNat]
  omega

/-- Settles O12: the results are exact modulo 65536, and exact when the flag says so. -/
theorem resultIsExactUnlessFlagged : Obligations.ResultIsExactUnlessFlagged := fun a b =>
  ⟨addResult_value_toNat a b, addResult_toInt_iff a b, addResult_toNat_iff a b,
    subResult_value_emod a b, subResult_toInt_iff a b, subResult_toNat_iff a b⟩

/-- Doubling is a left shift by one. -/
theorem add_self_eq_shiftLeft (a : Word) : a + a = a <<< 1 := by
  rw [BitVec.toNat_eq, BitVec.toNat_add, BitVec.toNat_shiftLeft, Nat.shiftLeft_eq]
  omega

/-- Doubling carries the top bit out. -/
theorem addResult_self_flags_c (a : Word) : (addResult a a).flags.c = a.getLsbD 15 := by
  have hbit : a.getLsbD 15 = decide (2 ^ 15 ≤ a.toNat) := by
    rw [← BitVec.msb_eq_getLsbD_last a, BitVec.msb_eq_decide]
  rw [addResult_flags_c, hbit, decide_eq_decide]
  omega

/-- The bits in `a` or `b` are those in one of them and those in both, two disjoint words. -/
theorem or_eq_xor_add_and (a b : Word) : a ||| b = (a ^^^ b) + (a &&& b) := by
  have hdisjoint : (a ^^^ b) &&& (a &&& b) = 0#16 := by
    ext k hk
    simp only [BitVec.getElem_and, BitVec.getElem_xor, BitVec.getElem_zero]
    cases a[k] <;> cases b[k] <;> rfl
  rw [BitVec.add_eq_or_of_and_eq_zero _ _ hdisjoint]
  ext k hk
  simp only [BitVec.getElem_and, BitVec.getElem_xor, BitVec.getElem_or]
  cases a[k] <;> cases b[k] <;> rfl

/-- Settles O13: each idiom is an identity of the sums and differences that ADD and SUB compute. -/
theorem builtOperations : Obligations.BuiltOperations := by
  intro a b
  refine ⟨?_, addResult_self_flags_c a, ?_, ?_⟩
  · rw [addResult_value, add_self_eq_shiftLeft]
  · change (subResult (a ||| b) (a &&& b)).value = a ^^^ b
    rw [subResult_value, or_eq_xor_add_and, BitVec.add_sub_cancel]
  · rw [subResult_value]
    exact BitVec.zero_sub b

end Sys2Proof.Machine
end

section
/-! Registers, flags and the program counter, over all instructions (10_state.md sections 1 to 3). -/

namespace Sys2Proof.Machine

/-- Settles O16, value by value of the parameter's type. -/
theorem rzIndexIsInRange : Obligations.RzIndexIsInRange := by
  unfold Obligations.RzIndexIsInRange rzIndex
  cases Config.rzChoice <;> decide

/-- What a destination reads after a write to it. -/
theorem getReg_setReg_same (s : State) (r : Reg) (x : Word) :
    (s.setReg r x).getReg r = if r = rzIndex then 0 else x := by
  rw [getReg_setReg]
  by_cases hr : r = rzIndex
  · simp [hr, getReg_rz]
  · simp [hr]

theorem getReg_setReg_of_ne_rz (s : State) {r : Reg} (hr : r ≠ rzIndex) (x : Word) :
    (s.setReg r x).getReg r = x := by
  rw [getReg_setReg_same, if_neg hr]

theorem getReg_setReg_of_ne (s : State) {r q : Reg} (h : q ≠ r) (x : Word) :
    (s.setReg r x).getReg q = s.getReg q := by
  rw [getReg_setReg, if_neg fun hq => h hq.1]

/-- With `rz` as destination an ALU operation changes `pc` and the flags alone. -/
theorem aluOp_rz (s : State) (op : Word → Word → AluResult) (ra rb : Reg) :
    s.aluOp op rzIndex ra rb =
      { s with pc := s.pc + 1, flags := (op (s.getReg ra) (s.getReg rb)).flags } := by
  rw [State.aluOp, setReg_rz]
  rfl

/-- With `rz` as destination a register write and the increment of `pc` are that increment alone. -/
theorem setReg_rz_advancePc (s : State) (x : Word) :
    (s.setReg rzIndex x).advancePc = { s with pc := s.pc + 1 } := by
  rw [setReg_rz]
  rfl

/-- Settles O10: the register write of each of the seven instructions is lost. -/
theorem rzDestinationChangesNoRegister : Obligations.RzDestinationChangesNoRegister := by
  intro s
  simp only [exec_eq_effect, effect, setReg_rz_advancePc, aluOp_rz, implies_true, and_self]

theorem effect_movl (rd : Reg) (imm8 : Nat) (s : State) :
    effect (.movl rd imm8) s = (s.setReg rd (lowByteOnly imm8)).advancePc := rfl

theorem effect_seth (rd : Reg) (imm8 : Nat) (s : State) :
    effect (.seth rd imm8) s = (s.setReg rd (withHighByte imm8 (s.getReg rd))).advancePc := rfl

/-- The high byte of a word above its low byte is the word. -/
theorem withHighByte_lowByteOnly (k : Word) :
    withHighByte (k.toNat / 256) (lowByteOnly (k.toNat % 256)) = k := by
  have hk := k.isLt
  rw [lowByteOnly_eq_ofNat (by omega), withHighByte_eq_ofNat (by omega), BitVec.toNat_eq]
  simp only [BitVec.toNat_ofNat]
  omega

/-- Settles O14: in the first order SETH keeps the low byte that MOVL wrote; in the second MOVL overwrites
what SETH wrote. -/
theorem movlThenSethLoadsConstant : Obligations.MovlThenSethLoadsConstant := by
  intro k rd s hrd
  refine ⟨⟨_, _, exec_eq_effect _ _, exec_eq_effect _ _, ?_, rfl⟩,
    ⟨_, _, exec_eq_effect _ _, exec_eq_effect _ _, ?_, rfl⟩⟩
  · rw [effect_seth, effect_movl, getReg_advancePc, getReg_setReg_of_ne_rz _ hrd, getReg_advancePc,
      getReg_setReg_of_ne_rz _ hrd, withHighByte_lowByteOnly]
  · rw [effect_movl, getReg_advancePc, getReg_setReg_of_ne_rz _ hrd, lowByteOnly_eq_ofNat (by omega),
      BitVec.toNat_ofNat]
    omega

/-- An ALU operation leaves every register but its destination. -/
theorem getReg_aluOp_of_ne (s : State) (op : Word → Word → AluResult) {rd q : Reg} (h : q ≠ rd)
    (ra rb : Reg) : (s.aluOp op rd ra rb).getReg q = s.getReg q :=
  getReg_setReg_of_ne s h _

/-- An instruction leaves every register it does not write. -/
theorem getReg_effect_of_not_written (i : Instr) (s : State) {q : Reg} (hq : q ∉ registersWritten i) :
    (effect i s).getReg q = s.getReg q := by
  cases i with
  | movl rd imm8 | seth rd imm8 | ldr rd ra => exact getReg_setReg_of_ne s (List.ne_of_not_mem_cons hq) _
  | str rd ra => exact getReg_memWrite s (s.getReg ra) (s.getReg rd) q
  | and rd ra rb | orr rd ra rb | add rd ra rb | sub rd ra rb =>
    exact getReg_aluOp_of_ne s _ (List.ne_of_not_mem_cons hq) ra rb

/-- Two next states agree: on the written registers, the flags, `pc`, memory and the held words. -/
structure AgreeOn (written : List Reg) (t t' : State) : Prop where
  regs : ∀ r ∈ written, t'.getReg r = t.getReg r
  flags : t'.flags = t.flags
  pc : t'.pc = t.pc
  mem : t'.mem = t.mem
  held : t'.held = t.held

/-- The same write to a register leaves it the same, whatever the register files were. -/
theorem agreeOn_setReg_advancePc (s : State) (f : RegFile) (rd : Reg) (x : Word) :
    AgreeOn [rd] (s.setReg rd x).advancePc ({ s with regs := f }.setReg rd x).advancePc where
  regs r hr := by
    rw [List.mem_singleton.mp hr, getReg_advancePc, getReg_advancePc, getReg_setReg_same,
      getReg_setReg_same]
  flags := rfl
  pc := rfl
  mem := rfl
  held := rfl

/-- An ALU operation on the same operands leaves the same result and flags. -/
theorem agreeOn_aluOp (s : State) (f : RegFile) (op : Word → Word → AluResult) {rd ra rb : Reg}
    (hread : ∀ r ∈ [ra, rb], { s with regs := f }.getReg r = s.getReg r) :
    AgreeOn [rd] (s.aluOp op rd ra rb) ({ s with regs := f }.aluOp op rd ra rb) := by
  have hra := hread ra (by simp)
  have hrb := hread rb (by simp)
  unfold State.aluOp
  rw [hra, hrb]
  obtain ⟨hregs, -, hpc, hmem, hheld⟩ :=
    agreeOn_setReg_advancePc s f rd (op (s.getReg ra) (s.getReg rb)).value
  exact ⟨hregs, rfl, hpc, hmem, hheld⟩

/-- What an instruction leaves in what it writes depends on the registers it reads alone. -/
theorem agreeOn_effect (i : Instr) (s : State) (f : RegFile)
    (hread : ∀ r ∈ registersRead i, { s with regs := f }.getReg r = s.getReg r) :
    AgreeOn (registersWritten i) (effect i s) (effect i { s with regs := f }) := by
  cases i with
  | movl rd imm8 => exact agreeOn_setReg_advancePc s f rd _
  | seth rd imm8 =>
    rw [effect_seth, effect_seth, hread rd List.mem_cons_self]
    exact agreeOn_setReg_advancePc s f rd _
  | ldr rd ra =>
    rw [effect_ldr, effect_ldr, hread ra List.mem_cons_self]
    exact agreeOn_setReg_advancePc s f rd _
  | str rd ra =>
    have hrd := hread rd (by simp [registersRead])
    have hra := hread ra (by simp [registersRead])
    rw [effect_str, effect_str, hrd, hra]
    exact ⟨fun r hr => absurd hr List.not_mem_nil, rfl, rfl, rfl, rfl⟩
  | and rd ra rb | orr rd ra rb | add rd ra rb | sub rd ra rb => exact agreeOn_aluOp s f _ hread

/-- Settles O17: the frame over the registers an instruction does not write, and the agreement on what it
does write. -/
theorem onlyNamedRegistersMatter : Obligations.OnlyNamedRegistersMatter := by
  intro i s t h
  obtain rfl := eq_effect_of_exec h
  refine ⟨fun r hr => getReg_effect_of_not_written i s hr, fun f hread => ?_⟩
  obtain ⟨hregs, hflags, hpc, hmem, hheld⟩ := agreeOn_effect i s f hread
  exact ⟨_, exec_eq_effect i _, hregs, hflags, hpc, hmem, hheld⟩

/-- No instruction reads `pc`: from another `pc` its effect differs in `pc` alone. -/
theorem effect_with_pc (i : Instr) (s : State) (p : Word) :
    effect i { s with pc := p } = { effect i s with pc := p + 1 } := by
  cases i <;> rfl

/-- Settles O18: the common effect counts `pc` on, and no effect reads it. -/
theorem pcCountsOnAndIsNotRead : Obligations.PcCountsOnAndIsNotRead := by
  intro i s
  refine ⟨effect i s, exec_eq_effect i s, (effect_commonEffect i s).pc_next, fun p => ?_⟩
  rw [exec_eq_effect, effect_with_pc]

/-- No instruction reads the flags: the four ALU forms overwrite other flags, the rest keep them. -/
theorem effect_with_flags (i : Instr) (s : State) (f : Flags) :
    effect i { s with flags := f } =
      if writesFlags i then effect i s else { effect i s with flags := f } := by
  cases i <;> rfl

theorem effect_flags_of_not_writesFlags {i : Instr} (h : writesFlags i = false) (s : State) :
    (effect i s).flags = s.flags := by
  simpa [h] using congrArg State.flags (effect_with_flags i s s.flags)

/-- Settles O19, from what an effect does with other flags. -/
theorem flagsWrittenByFourInstructions : Obligations.FlagsWrittenByFourInstructions := by
  intro i s
  refine ⟨effect i s, exec_eq_effect i s, fun h => effect_flags_of_not_writesFlags h s, fun h f => ?_⟩
  rw [exec_eq_effect, effect_with_flags, if_pos h]

/-- A step that fetches a word of an instruction runs it. -/
theorem step_of_instr {s : State} {i : Instr} (hmark : s.refused = none)
    (hd : decode s.fetch = .instr i) : step s = exec i s.countFetch := by
  simp [step, hmark, hd]

/-- A step that fetches a word without a meaning is refused. -/
theorem step_of_refused {s : State} {reason : RefuseReason} (hmark : s.refused = none)
    (hd : decode s.fetch = .refused reason) : step s = .refused (refusalAt s.pc reason) := by
  simp [step, hmark, hd]

/-- A step of a machine whose mark is set stays refused. -/
theorem step_of_mark {s : State} {r : Refusal} (hmark : s.refused = some r) : step s = .refused r := by
  simp [step, hmark]

/-- Settles O20: the mark and the fetch are the same under other flags, and no effect reads the flags. -/
theorem flagsNeverSteerAStep : Obligations.FlagsNeverSteerAStep := by
  intro s f
  have hfetch : { s with flags := f }.fetch = s.fetch := rfl
  constructor
  · intro t h
    obtain ⟨hmark, i, hd, rfl⟩ := step_next_cases h
    rw [step_of_instr (s := { s with flags := f }) (i := i) hmark (hfetch ▸ hd), exec_eq_effect]
    refine ⟨(effect i { s.countFetch with flags := f }).flags, congrArg _ ?_⟩
    change effect i { s.countFetch with flags := f } = _
    rw [effect_with_flags]
    cases writesFlags i <;> rfl
  · intro r h
    obtain hmark | ⟨hmark, reason, hd, rfl⟩ := step_refused_cases h
    · exact step_of_mark hmark
    · exact step_of_refused (s := { s with flags := f }) hmark (hfetch ▸ hd)

/-- Settles O36: the fetch is of a held word, and the step is the instruction's execution. -/
theorem stepRunsDecodedInstruction : Obligations.StepRunsDecodedInstruction := fun s _ hmark hd =>
  ⟨fetchChoosing_mem_heldAt s _ s.pc, step_of_instr hmark hd⟩

/-- A step of a machine whose mark is clear goes on by an instruction or is refused by the decoder. -/
theorem step_cases {s : State} (hmark : s.refused = none) :
    (∃ i, decode s.fetch = .instr i ∧ step s = .next (effect i s.countFetch)) ∨
    ∃ reason, decode s.fetch = .refused reason ∧ step s = .refused (refusalAt s.pc reason) := by
  cases hd : decode s.fetch with
  | instr i => exact .inl ⟨i, rfl, (step_of_instr hmark hd).trans (exec_eq_effect i _)⟩
  | refused reason => exact .inr ⟨reason, rfl, step_of_refused hmark hd⟩

/-- Settles O39: every instruction has an effect, and no effect sets the mark. -/
theorem nothingFaults : Obligations.NothingFaults := by
  refine ⟨fun i s => ⟨effect i s, exec_eq_effect i s⟩, fun s hmark => ?_⟩
  obtain ⟨i, -, hstep⟩ | hrefused := step_cases hmark
  · exact .inl ⟨_, hstep, (effect_commonEffect i s.countFetch).mark.trans hmark⟩
  · exact .inr hrefused

end Sys2Proof.Machine
end

section
/-! Memory and the held words in a step (20_memory.md sections 4 and 5; 10_state.md R24). -/

namespace Sys2Proof.Machine

variable {α : Type}

/-- Inserting what a canonical list already has changes nothing. -/
theorem insertCell_of_lookupCell (m : List (Nat × α)) {k : Nat} {x : α} (hm : risingCells m = true)
    (hl : lookupCell m k = some x) : insertCell m k x = m := by
  induction m with
  | nil => simp [lookupCell] at hl
  | cons c rest ih =>
    obtain ⟨j, y⟩ := c
    simp only [risingCells, Bool.and_eq_true] at hm
    obtain ⟨⟨-, hall⟩, hrest⟩ := hm
    by_cases hjk : j = k
    · subst hjk
      simpa [insertCell, lookupCell, eq_comm] using hl
    · have hl' : lookupCell rest k = some x := by simpa [lookupCell, hjk] using hl
      have hlt := of_decide_eq_true (List.all_eq_true.mp hall _ (mem_of_lookupCell rest hl'))
      simp [insertCell, Ne.symm hjk, Nat.lt_asymm hlt, ih hrest hl']

theorem memRead_of_contentAt {s : State} {a v : Word} (h : s.contentAt a = some v) :
    s.memRead a = v := by
  rw [State.memRead, h, contentValue]

/-- A store of the word that a canonical memory lists at the address changes nothing. -/
theorem memWrite_of_contentAt {s : State} {a v : Word} (hwf : Memory.wf s.mem = true)
    (h : s.contentAt a = some v) : s.memWrite a v = s := by
  rw [State.memWrite, insertCell_of_lookupCell s.mem hwf h, if_pos h]

theorem memRead_mem_heldAt (s : State) (a : Word) : s.memRead a ∈ s.heldAt a := List.mem_cons_self

/-- Settles O23: the word stored is the one read there already, and a held one. -/
theorem storeOfSameWordChangesNothing : Obligations.StoreOfSameWordChangesNothing := by
  intro s a
  refine ⟨fun b => ⟨?_, fun v => ?_⟩, fun hwf hlisted => ?_⟩
  · rw [memRead_memWrite]
    split
    · rename_i hb
      rw [hb]
    · rfl
  · rw [mem_heldAt_memWrite, or_iff_left_iff_imp]
    rintro ⟨rfl, rfl⟩
    exact memRead_mem_heldAt s b
  · obtain ⟨v, hv⟩ := Option.ne_none_iff_exists'.mp hlisted
    rw [memRead_of_contentAt hv, memWrite_of_contentAt hwf hv]

/-- Settles O24: STR changes no register, and LDR reads the word just stored. -/
theorem loadSeesEarlierStore : Obligations.LoadSeesEarlierStore := by
  intro s rd ra rd' ra' haddr hrd'
  refine ⟨_, _, exec_eq_effect _ _, exec_eq_effect _ _, ?_⟩
  rw [effect_ldr, effect_str, getReg_advancePc, getReg_setReg_of_ne_rz _ hrd', memRead_advancePc,
    getReg_advancePc, getReg_memWrite, haddr, memRead_memWrite_same]

/-- The words an address has held after an instruction: those before, and the current one. -/
theorem mem_heldAt_effect (i : Instr) (s : State) (a v : Word) :
    v ∈ (effect i s).heldAt a ↔ v ∈ s.heldAt a ∨ v = (effect i s).memRead a := by
  have kept : ∀ t : State, t.heldAt a = s.heldAt a → t.memRead a = s.memRead a →
      (v ∈ t.heldAt a ↔ v ∈ s.heldAt a ∨ v = t.memRead a) := by
    intro t hheld hread
    rw [hheld, hread, iff_self_or]
    rintro rfl
    exact memRead_mem_heldAt s a
  cases i with
  | movl rd imm8 | seth rd imm8 | ldr rd ra => exact kept _ rfl rfl
  | and rd ra rb | orr rd ra rb | add rd ra rb | sub rd ra rb => exact kept _ rfl rfl
  | str rd ra =>
    rw [effect_str, heldAt_advancePc, memRead_advancePc, mem_heldAt_memWrite, memRead_memWrite]
    by_cases ha : a = s.getReg ra
    · simp [ha]
    · simp only [ha, false_and, or_false, if_false, iff_self_or]
      rintro rfl
      exact memRead_mem_heldAt s a

/-- Settles O27, from what an instruction does to the held words; counting the fetch does nothing to
them. -/
theorem heldWordsOnlyGrow : Obligations.HeldWordsOnlyGrow := by
  intro s t a h
  obtain ⟨-, i, -, rfl⟩ := step_next_cases h
  exact ⟨memRead_mem_heldAt _ a, fun v hv => (mem_heldAt_effect i s.countFetch a v).mpr (.inl hv),
    fun v hv => (mem_heldAt_effect i s.countFetch a v).mp hv⟩

/-- An instruction that does not write memory leaves it as it was. -/
theorem memoryUnchanged_effect {i : Instr} (h : writesMemory i = false) (s : State) :
    MemoryUnchanged s (effect i s) := by
  cases i with
  | movl rd imm8 | seth rd imm8 | ldr rd ra => exact memoryUnchanged_setReg_advancePc s rd _
  | and rd ra rb | orr rd ra rb | add rd ra rb | sub rd ra rb => exact memoryUnchanged_aluOp s _ rd ra rb
  | str rd ra => simp [writesMemory] at h

/-- An instruction that writes memory writes no register. -/
theorem registersWritten_of_writesMemory {i : Instr} (h : writesMemory i = true) :
    registersWritten i = [] := by
  cases i with
  | str rd ra => rfl
  | movl | seth | ldr | and | orr | add | sub => simp [writesMemory] at h

/-- Settles O25: the fetched instruction leaves memory, or it is STR and leaves the registers. -/
theorem onlyStrWritesMemory : Obligations.OnlyStrWritesMemory := by
  intro s t h
  obtain ⟨-, i, hd, rfl⟩ := step_next_cases h
  refine ⟨i, hd, fun hw => memoryUnchanged_effect hw s.countFetch, fun hw q => ?_⟩
  exact getReg_effect_of_not_written i s.countFetch (by simp [registersWritten_of_writesMemory hw])

/-- Where only the current word was held, it is the one member of the held words. -/
theorem heldAt_of_settled {s : State} {a : Word} (h : FetchSettled s a) :
    s.heldAt a = [s.memRead a] := by
  rw [State.heldAt, show s.formerAt a = [] from h, List.map_nil]

/-- The choice of a member's place in the held words fetches it. -/
theorem fetchChoosing_index (s : State) {a : Word} {n : Nat} (hn : n < (s.heldAt a).length) :
    s.fetchChoosing n a = (s.heldAt a)[n] := by
  unfold State.fetchChoosing
  split
  · rename_i hformer
    have hheld : s.heldAt a = [s.memRead a] := heldAt_of_settled hformer
    simp [hheld]
  · rw [Nat.mod_eq_of_lt hn, List.getD_eq_getElem _ _ hn]

/-- Settles O26: a fetch stays inside the held words, and the place of a member is a choice that fetches
it. -/
theorem fetchReturnsAnyHeldWord : Obligations.FetchReturnsAnyHeldWord := by
  intro s a
  refine ⟨fun n => fetchChoosing_mem_heldAt s n a, fun v hv => ?_,
    fun hsingle n => hsingle _ (fetchChoosing_mem_heldAt s n a)⟩
  obtain ⟨n, hn, rfl⟩ := List.getElem_of_mem hv
  exact ⟨n, fetchChoosing_index s hn⟩

/-- Settles O28: after the store the next address has held its old word and the stored one, and no other. -/
theorem storeOverNextInstructionLeavesTwoOutcomes :
    Obligations.StoreOverNextInstructionLeavesTwoOutcomes := by
  intro s rd ra haddr hsettled
  have hheld : ∀ v, v ∈ (effect (.str rd ra) s).heldAt (s.pc + 1) ↔
      v = s.memRead (s.pc + 1) ∨ v = s.getReg rd := by
    intro v
    rw [effect_str, heldAt_advancePc, mem_heldAt_memWrite, heldAt_of_settled hsettled, haddr,
      List.mem_singleton, and_iff_right rfl]
  obtain ⟨hmember, hchoice, -⟩ := fetchReturnsAnyHeldWord (effect (.str rd ra) s) (s.pc + 1)
  exact ⟨_, exec_eq_effect _ _, fun n => (hheld _).mp (hmember n),
    hchoice _ ((hheld _).mpr (.inl rfl)), hchoice _ ((hheld _).mpr (.inr rfl))⟩

/-- Where the contents at `pc` never changed, the step fetches the current word. -/
theorem fetch_of_settled {s : State} (h : FetchSettled s s.pc) : s.fetch = s.memRead s.pc :=
  fetchChoosing_settled s _ h

/-- Settles O29: the fetched word is the LDR's own, and the LDR loads the word at the same address. -/
theorem ldrOfOwnAddressLoadsOwnWord : Obligations.LdrOfOwnAddressLoadsOwnWord := by
  intro s rd ra hmark hsettled hword haddr hrd
  have hd : decode s.fetch = .instr (.ldr rd ra) := by
    rw [fetch_of_settled hsettled, hword, decode_encode_ldr]
  refine ⟨_, (step_of_instr hmark hd).trans (exec_eq_effect _ _), ?_⟩
  rw [effect_ldr, getReg_advancePc, getReg_setReg_of_ne_rz _ hrd, memRead_countFetch,
    getReg_countFetch, haddr, hword]

theorem memRead_withFetchWord (s : State) (nbits w : Nat) (a : Word) :
    (s.withFetchWord nbits w).memRead a =
      if a = s.pc then BitVec.ofNat 16 (w % 2 ^ nbits) else s.memRead a :=
  memRead_place s s.pc a (BitVec.ofNat 16 (w % 2 ^ nbits))

theorem fetchSettled_withFetchWord (s : State) (nbits w : Nat) :
    FetchSettled (s.withFetchWord nbits w) s.pc :=
  (formerAt_place s s.pc s.pc (BitVec.ofNat 16 (w % 2 ^ nbits))).trans (if_pos rfl)

/-- The word placed at `pc` is the one fetched next. -/
theorem fetch_withFetchWord (s : State) (nbits w : Nat) :
    (s.withFetchWord nbits w).fetch = BitVec.ofNat 16 (w % 2 ^ nbits) := by
  refine (fetch_of_settled (fetchSettled_withFetchWord s nbits w)).trans ?_
  exact (memRead_withFetchWord s nbits w s.pc).trans (if_pos rfl)

/-- A table word that decodes is a word of the decoder. -/
theorem decode_of_decodeTableWord {nbits w : Nat} {i : Instr} (h : decodeTableWord nbits w = some i) :
    decode (BitVec.ofNat 16 (w % 2 ^ nbits)) = .instr i := by
  unfold decodeTableWord at h
  split at h
  · split at h
    · rename_i j hd
      rw [hd, Option.some.inj h]
    · cases h
  · cases h

/-- Settles O37: the placed word is the one fetched, and placing it touches no other word. -/
theorem placedWordIsRunNext : Obligations.PlacedWordIsRunNext := by
  intro s nbits w i h
  have hd : decode (s.withFetchWord nbits w).fetch = .instr i := by
    rw [fetch_withFetchWord, decode_of_decodeTableWord h]
  refine ⟨step_of_instr rfl hd, rfl, rfl, rfl, fun a ha => ?_⟩
  rw [memRead_withFetchWord, if_neg ha]

end Sys2Proof.Machine
end

section
/-! Reset, boot and the invariant (10_state.md section 9; 70_reset_and_hazards.md R150, R151). -/

namespace Sys2Proof.Machine

/-- Every instruction keeps the invariant, by the operation its effect is made of. -/
theorem inv_effect {s : State} (h : s.Inv) (i : Instr) : (effect i s).Inv := by
  cases i with
  | movl rd imm8 | seth rd imm8 | ldr rd ra => exact inv_advancePc (inv_setReg h rd _)
  | str rd ra => exact inv_advancePc (inv_memWrite h _ _)
  | and rd ra rb | orr rd ra rb | add rd ra rb | sub rd ra rb => exact inv_aluOp h _ rd ra rb

/-- Settles O46: a step that goes on counts its fetch and runs one instruction, and both keep the
invariant. -/
theorem stepKeepsInvariant : Obligations.StepKeepsInvariant := by
  intro s t hinv h
  obtain ⟨-, i, -, rfl⟩ := step_next_cases h
  exact inv_effect (inv_countFetch hinv) i

theorem reset_regs_cell (r : Reg) : State.reset.regs.cell r = resetCell r := by
  cases r <;> rfl

theorem reset_inv : State.reset.Inv where
  mem_wf := reset_mem_wf
  held_wf := rfl
  rz_cell := by rw [reset_regs_cell, resetCell, if_pos ((isRz_iff rzIndex).mpr rfl)]

/-- Loading any words keeps what placing one word keeps. -/
theorem loadFrom_induction {P : State → Prop} (hplace : ∀ s a w, P s → P (s.place a w))
    (image : List Word) : ∀ (s : State) (k : Nat), P s → P (s.loadFrom k image) := by
  induction image with
  | nil => exact fun s k hs => hs
  | cons w rest ih =>
    intro s k hs
    unfold State.loadFrom
    split
    · exact ih _ _ (hplace s _ w hs)
    · exact hs

/-- Settles O45: the state after reset meets the invariant, and every word the host places keeps it. -/
theorem bootMeetsInvariant : Obligations.BootMeetsInvariant :=
  ⟨reset_inv, fun image =>
    loadFrom_induction (P := State.Inv) (fun _ a w h => inv_place h a w) image State.reset 0 reset_inv⟩

/-- Settles O43: memory and its former contents are empty after reset, and `rz` reads 0 in every state. -/
theorem resetState : Obligations.ResetState :=
  ⟨rfl, rfl, getReg_rz State.reset, fun _ => heldAt_of_settled rfl⟩

/-- What a loaded image leaves as after reset: all but memory, and every address has held one word. -/
structure Booted (s : State) : Prop where
  settled : ∀ a, FetchSettled s a
  pc : s.pc = 0
  refused : s.refused = none
  regs : s.regs = State.reset.regs
  flags : s.flags = State.reset.flags

theorem booted_place {s : State} (h : Booted s) (a w : Word) : Booted (s.place a w) where
  settled b := by
    rw [FetchSettled, formerAt_place, show s.formerAt b = [] from h.settled b, ite_self]
  pc := h.pc
  refused := h.refused
  regs := h.regs
  flags := h.flags

theorem boot_booted (image : List Word) : Booted (State.boot image) :=
  loadFrom_induction (P := Booted) (fun _ a w h => booted_place h a w) image State.reset 0
    ⟨fun _ => rfl, rfl, rfl, rfl, rfl⟩

/-- Reading memory after words were loaded from the address `k` upward, when they fit. -/
theorem memRead_loadFrom (image : List Word) :
    ∀ (s : State) (k : Nat), k + image.length ≤ 65536 → ∀ a : Word,
      (s.loadFrom k image).memRead a =
        if a.toNat < k then s.memRead a else (image[a.toNat - k]?).getD (s.memRead a) := by
  induction image with
  | nil => simp [State.loadFrom]
  | cons w rest ih =>
    intro s k hfit a
    rw [List.length_cons] at hfit
    have hk : k < 65536 := by omega
    have hplaced : a = BitVec.ofNat 16 k ↔ a.toNat = k := by
      rw [BitVec.toNat_eq, BitVec.toNat_ofNat, Nat.mod_eq_of_lt hk]
    rw [State.loadFrom, if_pos hk, ih _ _ (by omega), memRead_place]
    simp only [hplaced]
    obtain hlt | heq | hgt := Nat.lt_trichotomy a.toNat k
    · simp [hlt, Nat.ne_of_lt hlt, Nat.lt_succ_of_lt hlt]
    · simp [heq]
    · obtain ⟨d, hd⟩ := Nat.exists_eq_add_of_lt hgt
      have hsub : a.toNat - k = d + 1 := by omega
      have hsub' : a.toNat - (k + 1) = d := by omega
      simp [Nat.not_lt.mpr (Nat.le_of_lt hgt), Nat.not_lt.mpr hgt, Nat.ne_of_gt hgt, hsub, hsub']

theorem memRead_boot {image : List Word} (hfit : image.length ≤ 65536) (a : Word) :
    (State.boot image).memRead a = (image[a.toNat]?).getD (State.reset.memRead a) := by
  have hload := memRead_loadFrom image State.reset 0 (by omega) a
  rw [if_neg (Nat.not_lt_zero _)] at hload
  exact hload

/-- Settles O44: the image is read from address 0, and every word placed leaves the rest as after reset. -/
theorem bootHoldsImage : Obligations.BootHoldsImage := by
  intro image hfit
  obtain ⟨hsettled, hpc, hmark, hregs, hflags⟩ := boot_booted image
  exact ⟨memRead_boot hfit, fun a => heldAt_of_settled (hsettled a), hpc, hmark, hregs, hflags⟩

end Sys2Proof.Machine
end

section
/-! What the assembler accepts (30_encoding.md section 7; 92_eei_decisions.md D15). -/

namespace Sys2Proof.Machine

/-- The check answers the instruction itself, when it is well formed. -/
theorem checked_eq_some_iff (i j : Instr) : checked i = some j ↔ i.wellFormed = true ∧ i = j := by
  simp [checked]

theorem wellFormed_of_checked {i j : Instr} (h : checked i = some j) : j.wellFormed = true := by
  obtain ⟨hwf, rfl⟩ := (checked_eq_some_iff i j).mp h
  exact hwf

theorem wellFormed_of_assembleI {build : Reg → Nat → Instr} {rd : RegName} {imm8 : Nat} {i : Instr}
    (h : assembleI build rd imm8 = some i) : i.wellFormed = true := by
  unfold assembleI at h
  split at h
  · exact wellFormed_of_checked h
  · cases h

theorem wellFormed_of_assembleM {build : Reg → Reg → Instr} {rd ra : RegName} {i : Instr}
    (h : assembleM build rd ra = some i) : i.wellFormed = true := by
  unfold assembleM at h
  split at h
  · exact wellFormed_of_checked h
  · cases h

theorem wellFormed_of_assembleR {build : Reg → Reg → Reg → Instr} {rd : Option RegName}
    {ra rb : RegName} {i : Instr} (h : assembleR build rd ra rb = some i) : i.wellFormed = true := by
  unfold assembleR at h
  split at h
  · exact wellFormed_of_checked h
  · cases h

/-- Whatever the assembler accepts has an encoding, format by format. -/
theorem wellFormed_of_assemble {l : AsmLine} {i : Instr} (h : assemble l = some i) :
    i.wellFormed = true := by
  cases l with
  | movl | seth => exact wellFormed_of_assembleI h
  | ldr | str => exact wellFormed_of_assembleM h
  | and | orr | add | sub => exact wellFormed_of_assembleR h

/-- A format I line whose instruction is ill formed for every register is in error. -/
theorem assembleI_eq_none {build : Reg → Nat → Instr} {imm8 : Nat}
    (h : ∀ d, (build d imm8).wellFormed = false) (rd : RegName) : assembleI build rd imm8 = none := by
  unfold assembleI
  split
  · simp [checked, h]
  · rfl

theorem assembleI_of_index {build : Reg → Nat → Instr} {imm8 : Nat} {rd : RegName} {d : Reg}
    (hrd : rd.index = some d) (hwf : (build d imm8).wellFormed = true) :
    assembleI build rd imm8 = some (build d imm8) := by
  simp [assembleI, hrd, checked, hwf]

theorem index_numbered_of_ne_rz {r : Reg} (hr : r ≠ rzIndex) :
    (RegName.numbered r).index = some r := by
  simp [RegName.index, isRz_eq_decide, hr]

theorem immInRange_of_gt {imm8 : Nat} (h : 255 < imm8) : immInRange imm8 = false :=
  decide_eq_false (Nat.not_le.mpr h)

/-- Settles O35: the assembler answers checked instructions alone, and the check of a format I line is the
range of its immediate. -/
theorem assembledLinesDecode : Obligations.AssembledLinesDecode := by
  refine ⟨fun l i h => decodeOfEncodeIsInstruction i (wellFormed_of_assemble h),
    fun rd imm8 himm => ?_, fun rd imm8 hrd himm => ?_⟩
  · have hill := immInRange_of_gt himm
    exact ⟨assembleI_eq_none (build := .movl) (fun _ => hill) rd,
      assembleI_eq_none (build := .seth) (fun _ => hill) rd⟩
  · have hwell := (immInRange_iff imm8).mpr himm
    exact ⟨assembleI_of_index (build := .movl) (index_numbered_of_ne_rz hrd) hwell,
      assembleI_of_index (build := .movl) (rd := .rz) rfl hwell⟩

end Sys2Proof.Machine
end

section
/-! A run up to `HALT_PC` (70_reset_and_hazards.md R152; 60_exceptions.md R131). -/

namespace Sys2Proof.Machine

/-- A refused machine is not over, whatever its `pc`. -/
theorem run_of_mark {s : State} {r : Refusal} (hmark : s.refused = some r) (haltPc : Word) (n : Nat) :
    run haltPc n s = .refused s := by
  cases n <;> simp [run, hmark]

/-- At `HALT_PC` the run is over, with no step made. -/
theorem run_of_halt {s : State} {haltPc : Word} (hmark : s.refused = none) (hpc : s.pc = haltPc)
    (n : Nat) : run haltPc n s = .over s := by
  cases n <;> simp [run, hmark, hpc]

/-- Before `HALT_PC` a step that goes on is followed by the rest of the run. -/
theorem run_succ_of_next {s t : State} {haltPc : Word} (hmark : s.refused = none)
    (hpc : s.pc ≠ haltPc) (hstep : step s = .next t) (n : Nat) :
    run haltPc (n + 1) s = run haltPc n t := by
  simp [run, hmark, hpc, hstep]

/-- Before `HALT_PC` a step that is refused ends the run with the mark set. -/
theorem run_succ_of_refused {s : State} {haltPc : Word} {r : Refusal} (hmark : s.refused = none)
    (hpc : s.pc ≠ haltPc) (hstep : step s = .refused r) (n : Nat) :
    run haltPc (n + 1) s = .refused (s.refuse r) := by
  simp [run, hmark, hpc, hstep]

/-- Settles O40: it is `run_of_halt` at the state's own `pc`. -/
theorem runIsOverAtHaltPc : Obligations.RunIsOverAtHaltPc := fun _ n hmark => run_of_halt hmark rfl n

/-- Settles O38: the first step is refused, and the mark it leaves refuses every later step and run. -/
theorem meaninglessWordIsRefused : Obligations.MeaninglessWordIsRefused := by
  intro s reason hmark hd
  have hstep := step_of_refused hmark hd
  exact ⟨hstep, fun haltPc n hpc => ⟨run_succ_of_refused hmark hpc hstep n, step_of_mark rfl,
    fun m => run_of_mark rfl haltPc m⟩⟩

/-- How many steps that go on lie between an address and `HALT_PC`: `pc` counts on by one in each. -/
def stepsTo (haltPc a : Word) : Nat := (haltPc - a).toNat

theorem stepsTo_lt (haltPc a : Word) : stepsTo haltPc a < 65536 := (haltPc - a).isLt

theorem stepsTo_eq_zero_iff (haltPc a : Word) : stepsTo haltPc a = 0 ↔ a = haltPc := by
  unfold stepsTo
  bv_omega

/-- From address 0 the number of steps to `HALT_PC` is that address. -/
theorem stepsTo_from_zero (haltPc : Word) : stepsTo haltPc 0 = haltPc.toNat :=
  congrArg BitVec.toNat (BitVec.sub_zero haltPc)

theorem stepsTo_succ {haltPc a : Word} (h : a ≠ haltPc) :
    stepsTo haltPc a = stepsTo haltPc (a + 1) + 1 := by
  unfold stepsTo
  bv_omega

/-- Every run with enough steps allowed is over at `HALT_PC`, or ends refused, for the reason of the word at
an address on the way there. -/
theorem run_ends {haltPc : Word} {n : Nat} : ∀ {s : State}, s.refused = none →
    stepsTo haltPc s.pc ≤ n →
    (∃ t, run haltPc n s = .over t ∧ t.pc = haltPc ∧ t.refused = none) ∨
    (∃ t reason, run haltPc n s = .refused t ∧ t.refused = some (refusalAt t.pc reason) ∧
      t.pc ≠ haltPc ∧ stepsTo haltPc t.pc ≤ stepsTo haltPc s.pc) := by
  induction n with
  | zero =>
    intro s hmark hn
    have hpc := (stepsTo_eq_zero_iff haltPc s.pc).mp (Nat.le_zero.mp hn)
    exact .inl ⟨s, run_of_halt hmark hpc 0, hpc, hmark⟩
  | succ n ih =>
    intro s hmark hn
    by_cases hpc : s.pc = haltPc
    · exact .inl ⟨s, run_of_halt hmark hpc (n + 1), hpc, hmark⟩
    obtain ⟨i, -, hstep⟩ | ⟨reason, -, hstep⟩ := step_cases hmark
    · obtain ⟨hpc', hmark', -⟩ := effect_common i s.countFetch
      rw [countFetch_pc] at hpc'
      have hcloser : stepsTo haltPc s.pc = stepsTo haltPc (effect i s.countFetch).pc + 1 := by
        rw [hpc', stepsTo_succ hpc]
      rw [run_succ_of_next hmark hpc hstep]
      obtain hover | ⟨t, reason, hrun, hreason, hne, hle⟩ := ih (hmark'.trans hmark) (by omega)
      · exact .inl hover
      · exact .inr ⟨t, reason, hrun, hreason, hne, by omega⟩
    · exact .inr ⟨_, reason, run_succ_of_refused hmark hpc hstep n, rfl, hpc, le_rfl⟩

/-- Settles O41: no address is 65,536 steps from `HALT_PC`. -/
theorem runEndsWithin65536Steps : Obligations.RunEndsWithin65536Steps := by
  intro haltPc s n hmark hn
  have hsteps := stepsTo_lt haltPc s.pc
  obtain hover | ⟨t, reason, hrun, hreason, -, -⟩ := run_ends hmark (haltPc := haltPc) (n := n) (by omega)
  · exact .inl hover
  · exact .inr ⟨t, reason, hrun, hreason⟩

theorem defaultHaltPc_toNat {code : List Word} (h : code.length < 65536) :
    (defaultHaltPc code).toNat = code.length := by
  rw [defaultHaltPc, BitVec.toNat_ofNat, Nat.mod_eq_of_lt h]

/-- From address 0 the addresses on the way to `HALT_PC` are those below it. -/
theorem toNat_lt_of_stepsTo_le {haltPc a : Word} (hne : a ≠ haltPc)
    (hle : stepsTo haltPc a ≤ stepsTo haltPc 0) : a.toNat < haltPc.toNat := by
  unfold stepsTo at hle
  bv_omega

/-- A loaded image is read word for word. -/
theorem getElem?_eq_memRead_boot {image : List Word} (hfit : image.length ≤ 65536) {a : Word}
    (ha : a.toNat < image.length) : image[a.toNat]? = some ((State.boot image).memRead a) := by
  rw [memRead_boot hfit, List.getElem?_eq_getElem ha, Option.getD_some]

/-- Settles O42: boot places the code below its length and the data after it, and a run from address 0 to
that length ends on the way. -/
theorem defaultHaltPcIsAfterCode : Obligations.DefaultHaltPcIsAfterCode := by
  intro code data hcode hfit
  have hlength : (imageWords code data).length = code.length + data.length := List.length_append
  refine ⟨defaultHaltPc_toNat hcode, fun a ha => ?_, fun a hlow hhigh => ?_, fun n hn => ?_⟩
  · rw [← getElem?_eq_memRead_boot hfit (by omega), imageWords, List.getElem?_append_left ha]
  · rw [← getElem?_eq_memRead_boot hfit (by omega), imageWords, List.getElem?_append_right hlow]
  · obtain ⟨-, hpc, hmark, -, -⟩ := boot_booted (imageWords code data)
    have hend := defaultHaltPc_toNat hcode
    have hsteps : stepsTo (defaultHaltPc code) (State.boot (imageWords code data)).pc = code.length := by
      rw [hpc, stepsTo_from_zero, hend]
    obtain ⟨t, hrun, htpc, htmark⟩ | ⟨t, reason, hrun, hreason, hne, hle⟩ :=
      run_ends (n := n) hmark (hsteps.trans_le hn)
    · exact .inl ⟨t, hrun, by rw [htpc, hend], htmark⟩
    · have hbelow := toNat_lt_of_stepsTo_le hne (hpc ▸ hle)
      exact .inr ⟨t, reason, hrun, hend ▸ hbelow, hreason⟩

end Sys2Proof.Machine
end
